-- ==== Sys2Proof/Word.lean ====
section
/-! DEFINITION. The data types of the CFB CORE: bytes, 32-bit words, byte sequences of a fixed length,
and the direction of a transform (spec/00_scope.md rules R10, R13; spec/10_state.md rules R23, R25). -/

namespace Sys2Proof

/-- A byte: a number in `0..255`, seen by XOR as eight bits (R10, R11). -/
abbrev Byte := BitVec 8

/-- A 32-bit header, response header or STATUS word; bit 31 is the most significant (R13, R66). -/
abbrev Word := BitVec 32

/-- `Bytes(n)`: the byte sequences of length exactly `n`, index 0 the first byte (R10). -/
abbrev Bytes (n : Nat) := Vector Byte n

/-- The byte sequence of length `n` whose bytes are those of the list, in index order. -/
def Bytes.ofList {n : Nat} (x : List Byte) (h : x.length = n) : Bytes n := ⟨⟨x⟩, h⟩

@[simp] theorem Bytes.toList_ofList {n : Nat} (x : List Byte) (h : x.length = n) :
    (Bytes.ofList x h).toList = x := rfl

/-- The direction of an invocation, an operand of START (R25, R67). -/
inductive Direction where
  | encrypt
  | decrypt
  deriving DecidableEq, Repr

end Sys2Proof
end

