-- ==== Sys2Proof/Config.lean ====
section
/-! DEFINITION. The three implementation parameters of the CORE, left uninterpreted: the block size `B`,
the key length `KLEN` and the primitive `E` (spec/00_scope.md rules R5, R6, R7; decisions D1 and D2 call
them OPEN). No proof can see their values, so whatever is proved holds for every instance of the CORE. The values
of the instance the source observed, `B = 16` and `KLEN = 32` with AES-256, are examples of the parameters and
constants of no definition (R9). -/

namespace Sys2Proof.Config

/-- `B - 1`. The block size is a number in `1..255` (R5, the table of R9; log entry 1). -/
opaque blockSizePred : Fin 255

/-- `KLEN - 1`. The key length is a number in `1..255` (R6, the table of R9; log entry 1). -/
opaque keyLenPred : Fin 255

/-- `B`: the block size of the primitive in bytes, `1 <= B <= 255` (R5, R9). -/
def blockSize : Nat := blockSizePred.val + 1

/-- `KLEN`: the key length of the primitive in bytes, `1 <= KLEN <= 255` (R6, R9). -/
def keyLen : Nat := keyLenPred.val + 1

/-- `E(key, block)`: the block cipher primitive in its forward direction, any total function
(R7, R9, R99, R101; log entry 2). The CORE has no inverse of it. -/
opaque E : Bytes keyLen → Bytes blockSize → Bytes blockSize

theorem one_le_blockSize : 1 ≤ blockSize := by unfold blockSize; omega

theorem blockSize_le : blockSize ≤ 255 := by have := blockSizePred.isLt; unfold blockSize; omega

theorem one_le_keyLen : 1 ≤ keyLen := by unfold keyLen; omega

theorem keyLen_le : keyLen ≤ 255 := by have := keyLenPred.isLt; unfold keyLen; omega

end Sys2Proof.Config
end

