-- ==== Sys2Proof/Syntax.lean ====
section
/-! DEFINITION. The five commands of the CORE, one constructor per row of spec/opcode_table.json, each
with its operands as spec/30_encoding.md rule R73 assembles them from the header and the payload. -/

namespace Sys2Proof

/-- A command with its operands. The lengths `key_len`, `iv_len` and `len` of the header are the lengths
of the byte sequences (R72, R73, R151; log entry 9). -/
inductive Instr where
  /-- START: direction, key, IV and requested segment size (R67, R113). -/
  | start (dir : Direction) (key iv : List Byte) (segSize : Byte)
  /-- SEG: one segment of the input (R68, R114). -/
  | seg (data : List Byte)
  /-- FINISH: the input is exhausted (R69, R115). -/
  | finish
  /-- ABORT: drop the invocation (R70, R116). -/
  | abort
  /-- STAT: read the STATUS word (R71, R117). -/
  | stat
  deriving DecidableEq, Repr

end Sys2Proof
end

