-- ==== Sys2Proof/WellFormed.lean ====
section
/-! DEFINITION. Which commands a header can carry: every length field of a header has 8 bits
(spec/30_encoding.md rules R67, R68, R73, R80). -/

namespace Sys2Proof

/-- The length of a byte sequence fits an 8-bit length field (R67, R68). -/
def fitsLengthField (x : List Byte) : Bool := decide (x.length ≤ 255)

/-- A command is well formed when each of its byte sequences fits its length field. A length that is out
of contract is well formed: the command's semantics refuses it (R80). -/
def Instr.wellFormed : Instr → Bool
  | .start _ key iv _ => fitsLengthField key && fitsLengthField iv
  | .seg data => fitsLengthField data
  | .finish => true
  | .abort => true
  | .stat => true

end Sys2Proof
end

