-- ==== Sys2Proof/Decode.lean ====
section
/-! DEFINITION. The encoding of commands on the CMD port: the headers, their fields, the payloads, the
decoder (total on every byte sequence) and the encoder (spec/30_encoding.md rules R65 to R73, R77 to
R80, R84; spec/20_memory.md rules R48 and R51). -/

namespace Sys2Proof

/-- The four bytes of a word on a byte-serial port, most significant byte first (R51). -/
def wordBytes (w : Word) : List Byte :=
  [w.extractLsb' 24 8, w.extractLsb' 16 8, w.extractLsb' 8 8, w.extractLsb' 0 8]

/-- The word whose four bytes arrive in this order, most significant byte first (R51). -/
def wordOfBytes (b3 b2 b1 b0 : Byte) : Word := b3 ++ b2 ++ b1 ++ b0

/-- The 4-bit operation field `H.bits[31:28]` of a header (R65). -/
def opField (h : Word) : BitVec 4 := h.extractLsb' 28 4

/-- What a header that decodes says: the operation and its fields (R67 to R71, R84). -/
inductive Header where
  | start (dir : Direction) (keyLen ivLen segSize : Byte)
  | seg (len : Byte)
  | finish
  | abort
  | stat
  deriving DecidableEq, Repr

/-- Why a header does not decode. -/
inductive IllegalHeader where
  /-- `op` is `0000` or one of `0110` to `1111` (R78). -/
  | reservedOpcode
  /-- `op` is one of `0001` to `0101` and a reserved bit is 1 (R79). -/
  | reservedBits
  deriving DecidableEq, Repr

/-- `dir`: bit 27 of a START header, 0 = Encrypt, 1 = Decrypt (R67). -/
def directionOfBit (b : BitVec 1) : Direction := if b = 1#1 then .decrypt else .encrypt

/-- The bit that stands for a direction, the inverse of `directionOfBit` (R67). -/
def bitOfDirection : Direction → BitVec 1
  | .encrypt => 0#1
  | .decrypt => 1#1

/-- The name of the rejection of a header that none of the five patterns matches (R78, R79). -/
def whyIllegal (h : Word) : IllegalHeader :=
  if 1 ≤ (opField h).toNat ∧ (opField h).toNat ≤ 5 then .reservedBits else .reservedOpcode

/-- `decode(H)`: the decoding procedure of R84, a function of the header alone. -/
def decodeHeader (h : Word) : Except IllegalHeader Header :=
  if h &&& 0xF7000000#32 = 0x10000000#32 then
    .ok (.start (directionOfBit (h.extractLsb' 27 1))
      (h.extractLsb' 16 8) (h.extractLsb' 8 8) (h.extractLsb' 0 8))
  else if h &&& 0xFFFFFF00#32 = 0x20000000#32 then .ok (.seg (h.extractLsb' 0 8))
  else if h = 0x30000000#32 then .ok .finish
  else if h = 0x40000000#32 then .ok .abort
  else if h = 0x50000000#32 then .ok .stat
  else .error (whyIllegal h)

/-- `plen(H)` of a header that decodes: the number of payload bytes that follow it (R72). -/
def Header.payloadLength : Header → Nat
  | .start _ keyLen ivLen _ => keyLen.toNat + ivLen.toNat
  | .seg len => len.toNat
  | .finish => 0
  | .abort => 0
  | .stat => 0

/-- `plen(H)`: 0 for a header that does not decode (R72). -/
def payloadLength (h : Word) : Nat :=
  match decodeHeader h with
  | .ok hd => hd.payloadLength
  | .error _ => 0

/-- The operands of a command from its header's fields and its payload: the key first, then the IV (R73). -/
def attachPayload : Header → List Byte → Instr
  | .start dir keyLen ivLen segSize, p =>
    .start dir (p.take keyLen.toNat) ((p.drop keyLen.toNat).take ivLen.toNat) segSize
  | .seg len, p => .seg (p.take len.toNat)
  | .finish, _ => .finish
  | .abort, _ => .abort
  | .stat, _ => .stat

/-- What the front of a byte stream on CMD holds. -/
inductive Decoded where
  /-- A whole command, and the bytes after it. -/
  | instr (i : Instr) (rest : List Byte)
  /-- A header that does not decode; it has no payload, so the bytes after it are what follows (R72). -/
  | illegal (why : IllegalHeader) (header : Word) (rest : List Byte)
  /-- Not yet a whole command: bytes of its header or of its payload are still to come (R65). -/
  | incomplete
  deriving DecidableEq, Repr

/-- The command at the front of a byte stream: a header, then `plen(H)` payload bytes (R65, R72). -/
def decode : List Byte → Decoded
  | b3 :: b2 :: b1 :: b0 :: tail =>
    match decodeHeader (wordOfBytes b3 b2 b1 b0) with
    | .error why => .illegal why (wordOfBytes b3 b2 b1 b0) tail
    | .ok hd =>
      if tail.length < hd.payloadLength then .incomplete
      else .instr (attachPayload hd (tail.take hd.payloadLength)) (tail.drop hd.payloadLength)
  | _ => .incomplete

/-- The header of a command: its length fields are the lengths of its byte sequences (R67, R68, R82). -/
def headerOf : Instr → Header
  | .start dir key iv segSize =>
    .start dir (BitVec.ofNat 8 key.length) (BitVec.ofNat 8 iv.length) segSize
  | .seg data => .seg (BitVec.ofNat 8 data.length)
  | .finish => .finish
  | .abort => .abort
  | .stat => .stat

/-- The header word, field by field from bit 31 down (R67 to R71). -/
def encodeHeader : Header → Word
  | .start dir keyLen ivLen segSize =>
    0b0001#4 ++ bitOfDirection dir ++ 0b000#3 ++ keyLen ++ ivLen ++ segSize
  | .seg len => 0b0010#4 ++ 0#20 ++ len
  | .finish => 0b0011#4 ++ 0#28
  | .abort => 0b0100#4 ++ 0#28
  | .stat => 0b0101#4 ++ 0#28

/-- The payload of a command: key then IV, or the segment, or nothing (R67 to R71). -/
def payloadOf : Instr → List Byte
  | .start _ key iv _ => key ++ iv
  | .seg data => data
  | .finish => []
  | .abort => []
  | .stat => []

/-- The bytes of a command as the host sends them on CMD: header, then payload (R65, R51, R48). -/
def encode (i : Instr) : List Byte := wordBytes (encodeHeader (headerOf i)) ++ payloadOf i

/-- The `op` field of a command's header (R65, R77), which its response echoes (R74). -/
def opOf : Instr → BitVec 4
  | .start _ _ _ _ => 0b0001#4
  | .seg _ => 0b0010#4
  | .finish => 0b0011#4
  | .abort => 0b0100#4
  | .stat => 0b0101#4

/-- A row of the opcode map: a header `H` selects it when `(H and mask) = match` (R77). -/
structure OpcodeRow where
  mnemonic : String
  mask : Word
  pattern : Word
  deriving DecidableEq, Repr

/-- The opcode map of R77. -/
def opcodeMap : List OpcodeRow :=
  [⟨"START", 0xF7000000#32, 0x10000000#32⟩,
   ⟨"SEG", 0xFFFFFF00#32, 0x20000000#32⟩,
   ⟨"FINISH", 0xFFFFFFFF#32, 0x30000000#32⟩,
   ⟨"ABORT", 0xFFFFFFFF#32, 0x40000000#32⟩,
   ⟨"STAT", 0xFFFFFFFF#32, 0x50000000#32⟩]

/-- A header selects a row of the opcode map (R77). -/
def OpcodeRow.selects (r : OpcodeRow) (h : Word) : Bool := decide (h &&& r.mask = r.pattern)

/-- The mnemonic of a command (R77). -/
def mnemonicOf : Instr → String
  | .start _ _ _ _ => "START"
  | .seg _ => "SEG"
  | .finish => "FINISH"
  | .abort => "ABORT"
  | .stat => "STAT"

/-- The bytes on CMD of an instruction whose bits, numbered as spec/opcode_table.json numbers them, are
`w`: the header is bits 31..0, sent most significant byte first, and the payload bytes its lengths ask
for are taken from the bits above, which are 0 from bit `nbits` on. -/
def tableWordBytes (nbits w : Nat) : List Byte :=
  let bits := w % 2 ^ nbits
  wordBytes (BitVec.ofNat 32 bits) ++
    (List.range (payloadLength (BitVec.ofNat 32 bits))).map
      fun i => BitVec.ofNat 8 (bits >>> (32 + 8 * i))

/-- The instruction the decoder reads from the bits `w` of an opcode-table row, or none where it refuses. -/
def decodeTableWord (nbits w : Nat) : Option Instr :=
  match decode (tableWordBytes nbits w) with
  | .instr i _ => some i
  | .illegal _ _ _ => none
  | .incomplete => none

end Sys2Proof
end

