-- ==== Sys2Proof/Machine/State.lean ====
section
/-! DEFINITION. The architectural state of one CORE instance, `(fsm, R, K, DIR, S, ACC, SHORT, ERR)`, with
the observation `PLOG` (spec/10_state.md rules R20 to R39) and the traffic of the ports CMD, RST and RSP
(spec/20_memory.md rule R47); its reset value; and the reasons a step can stop. -/

namespace Sys2Proof.Machine

/-- `fsm`: the state of the transform state machine (R21). -/
inductive Fsm where
  | idle
  | ready
  | processing
  | done
  | failed
  deriving DecidableEq, Repr

/-- `ERR`: the error kind of the most recent failure; there is one kind (R29, R150). -/
inductive ErrKind where
  | none
  | invalidLength
  deriving DecidableEq, Repr

/-- The segment size of an invocation: a natural number in `1..B` (R26). -/
structure SegSize where
  val : Nat
  one_le : 1 ≤ val
  le_blockSize : val ≤ Config.blockSize
  deriving DecidableEq, Repr

/-- One request on the PRIM port and its reply: `(key, block, result)` (R30, R101). -/
structure PrimRequest where
  key : Bytes Config.keyLen
  block : Bytes Config.blockSize
  result : Bytes Config.blockSize
  deriving DecidableEq, Repr

/-- The status of a response (R75). Code `11` is never produced, so it has no constructor. -/
inductive Status where
  | ok
  | invalidLength
  | rejected
  deriving DecidableEq, Repr

/-- A response on RSP: the echoed operation, the status and the payload (R74). -/
structure Response where
  op : BitVec 4
  status : Status
  data : List Byte
  deriving DecidableEq, Repr

/-- What the host does to the CORE: it sends a byte on CMD or asserts RST (R47, R170; log entry 3). -/
inductive HostEvent where
  | byte (b : Byte)
  | reset
  deriving DecidableEq, Repr

/-- The state items that can hold `NONE` (R22, R24, R25, R26). -/
inductive Item where
  | R
  | K
  | DIR
  | S
  deriving DecidableEq, Repr

/-- The state of one CORE instance (R20). An `Option` is the spec's own `NONE` (R12). -/
structure State where
  /-- The state machine state (R21). -/
  fsm : Fsm
  /-- The feedback register, of fixed length `B` (R22, R23). -/
  R : Option (Bytes Config.blockSize)
  /-- The key register, of fixed length `KLEN` (R24). -/
  K : Option (Bytes Config.keyLen)
  /-- The direction of the invocation (R25). -/
  DIR : Option Direction
  /-- The segment size of the invocation (R26). -/
  S : Option SegSize
  /-- The output accumulator, of unbounded length (R27). -/
  ACC : List Byte
  /-- A segment shorter than `S` has been processed (R28). -/
  SHORT : Bool
  /-- The error kind of the last failure (R29). -/
  ERR : ErrKind
  /-- The observation of the requests on PRIM, oldest first; nothing reads it (R30, log entry 10). -/
  PLOG : List PrimRequest
  /-- What the host has done on CMD and RST and the CORE has not yet taken, oldest first (log entry 3). -/
  CMD : List HostEvent
  /-- The responses given on RSP, oldest first (R59, R74; log entry 6). -/
  RSP : List Response
  deriving DecidableEq, Repr

/-- Why the machine stops with a fault. -/
inductive Fault where
  /-- A rule would read a state item that holds `NONE` (R12, decision D27, log entry 8). Raised by SEG, in
  states that R37 rules out. Safe: the model stops where the spec gives no meaning. -/
  | readNone (item : Item)
  deriving DecidableEq, Repr

/-- Why the machine refuses an instruction. -/
inductive Refusal where
  /-- The instruction has no meaning in the model yet. Raised by no arm of `exec`. Safe. -/
  | notModelled (mnemonic : String)
  deriving DecidableEq, Repr

/-- The state right after reset (R39, R171), with nothing on the ports (log entry 13). -/
def State.reset : State where
  fsm := .idle
  R := none
  K := none
  DIR := none
  S := none
  ACC := []
  SHORT := false
  ERR := .none
  PLOG := []
  CMD := []
  RSP := []

end Sys2Proof.Machine
end

