-- ==== Sys2Proof/Machine/Flags.lean ====
section
/-! DEFINITION. The flags SHORT and ERR, the codes of `fsm`, and the STATUS word that shows them
(spec/10_state.md rules R28, R29, R32; spec/30_encoding.md rule R76). -/

namespace Sys2Proof.Machine

/-- SHORT after a segment of `len` bytes: set by a segment shorter than `S`, never cleared by SEG
(R28, R114). -/
def shortAfter (short : Bool) (len : Nat) (S : SegSize) : Bool := short || decide (len < S.val)

/-- The code of `fsm` in STATUS bits 2:0 (R76). -/
def fsmCode : Fsm → BitVec 3
  | .idle => 0#3
  | .ready => 1#3
  | .processing => 2#3
  | .done => 3#3
  | .failed => 4#3

/-- STATUS bit 3: 1 when `ERR` is InvalidLength (R76). -/
def errBit : ErrKind → BitVec 1
  | .none => 0#1
  | .invalidLength => 1#1

/-- STATUS bit 4: 1 when `DIR` is Decrypt, 0 when it is Encrypt or `NONE` (R76). -/
def dirBit : Option Direction → BitVec 1
  | some dir => bitOfDirection dir
  | none => 0#1

/-- STATUS bit 5: the flag SHORT (R76). -/
def shortBit (short : Bool) : BitVec 1 := if short then 1#1 else 0#1

/-- STATUS bits 15:8: `S`, or 0 when `S` is `NONE` (R76). -/
def segField : Option SegSize → Byte
  | some S => BitVec.ofNat 8 S.val
  | none => 0#8

/-- The STATUS word, a read-only view of `fsm`, `ERR`, `DIR`, `SHORT` and `S` (R32, R76). -/
def statusWord (s : State) : Word :=
  0#16 ++ segField s.S ++ 0#2 ++ shortBit s.SHORT ++ dirBit s.DIR ++ errBit s.ERR ++ fsmCode s.fsm

end Sys2Proof.Machine
end

