-- ==== Sys2Proof/Machine/Operands.lean ====
section
/-! DEFINITION. What the commands do with their operands: the length checks of START and SEG
(spec/60_exceptions.md rules R151, R152) and the internal operations SEED, ADVANCE, DERIVE, COMBINE and
FBSEL on byte sequences (spec/40_feedback_register.md, spec/41_keystream_generator.md,
spec/42_xor_combiner.md). The operations are given for any block size, key length and primitive, each on
the domain the spec defines it on and on no other. -/

namespace Sys2Proof.Machine

/-- The lengths a primitive may be asked for and a register may be advanced by: `1 <= n <= B`
(R91, R95, R98, R103). -/
abbrev InBlock (n B : Nat) : Prop := 1 ≤ n ∧ n ≤ B

/-- START's operands are in contract: none of the causes (a), (b), (c) of R151 holds. -/
abbrev StartInContract (key iv : List Byte) (segSize : Byte) : Prop :=
  InBlock segSize.toNat Config.blockSize ∧ key.length = Config.keyLen ∧ iv.length = Config.blockSize

/-- SEG's operand is in contract: none of the causes (d), (e), (f) of R152 holds. -/
abbrev SegInContract (data : List Byte) (S : SegSize) (short : Bool) : Prop :=
  InBlock data.length S.val ∧ short = false

/-- SEED(iv): the register's initial value, on an IV of length `B` (R90). -/
def seed {B : Nat} (iv : List Byte) (h : iv.length = B) : Bytes B := Bytes.ofList iv h

/-- ADVANCE(c): drop the first `n` bytes of the register and append the emitted segment; defined for
`1 <= n <= B` (R91, R95). -/
def advance {B n : Nat} (R : Bytes B) (c : Bytes n) (h : InBlock n B) : Bytes B :=
  Bytes.ofList (R.toList.drop n ++ c.toList) (by simp; omega)

/-- DERIVE(n): the first `n` bytes of `E(K, R)`; defined for `1 <= n <= B` (R98, R103). -/
def derive {KLEN B : Nat} (E : Bytes KLEN → Bytes B → Bytes B) (K : Bytes KLEN) (R : Bytes B)
    (n : Nat) (h : InBlock n B) : Bytes n :=
  Bytes.ofList ((E K R).toList.take n) (by simp; omega)

/-- COMBINE(x, ks): byte-wise exclusive or of two sequences of one length (R11, R106). -/
def combine {n : Nat} (x ks : Bytes n) : Bytes n :=
  Bytes.ofList (List.zipWith (· ^^^ ·) x.toList ks.toList) (by simp)

/-- FBSEL(x, y): the ciphertext, which is the output when encrypting and the input when decrypting
(R93, R107). -/
def fbsel {n : Nat} (dir : Direction) (x y : Bytes n) : Bytes n :=
  match dir with
  | .encrypt => y
  | .decrypt => x

/-- The output segment of one pass of the segment loop: DERIVE from the register as it stands, then
COMBINE (R60, R114). -/
def segmentOutput {KLEN B n : Nat} (E : Bytes KLEN → Bytes B → Bytes B) (K : Bytes KLEN)
    (R : Bytes B) (x : Bytes n) (h : InBlock n B) : Bytes n :=
  combine x (derive E K R n h)

/-- The register after one pass of the segment loop: FBSEL, then ADVANCE (R60, R114). -/
def segmentRegister {KLEN B n : Nat} (E : Bytes KLEN → Bytes B → Bytes B) (dir : Direction)
    (K : Bytes KLEN) (R : Bytes B) (x : Bytes n) (h : InBlock n B) : Bytes B :=
  advance R (fbsel dir x (segmentOutput E K R x h)) h

/-- A byte sequence as one bit vector, byte 0 the most significant byte (R50). The model computes on
bytes; this view is used by no command (log entry 19). -/
def packed {n : Nat} (x : Bytes n) : BitVec (8 * n) :=
  BitVec.ofNat (8 * n) (x.toList.foldl (fun acc b => acc * 256 + b.toNat) 0)

end Sys2Proof.Machine
end

