-- ==== Sys2Proof/Machine/Ops.lean ====
section
/-! DEFINITION. The named operations every command goes through: responding, rejecting, taking the
exception InvalidLength (`Fail()`) and what leaves the Failed state, reading a state item, the primitive
request, the enablement table, the reset event, and taking the next event from the host's ports. -/

namespace Sys2Proof.Machine

/-! ### Responses (spec/30_encoding.md rules R74, R75) -/

/-- `respond(st, data)`: end the command with a response (R74). -/
def respond (op : BitVec 4) (status : Status) (data : List Byte) (s : State) : State :=
  { s with RSP := s.RSP ++ [⟨op, status, data⟩] }

/-- The status code in bits 9:8 of a response header (R75). -/
def statusCode : Status → BitVec 2
  | .ok => 0b00#2
  | .invalidLength => 0b01#2
  | .rejected => 0b10#2

/-- The response header `Q` (R74). -/
def responseHeader (r : Response) : Word :=
  r.op ++ 0#18 ++ statusCode r.status ++ BitVec.ofNat 8 r.data.length

/-- A response as the bytes that cross RSP: header most significant byte first, then payload
(R51, R74). -/
def responseBytes (r : Response) : List Byte := wordBytes (responseHeader r) ++ r.data

/-- The status a code stands for; code `11` stands for none (R75, U6). -/
def statusOfCode (c : BitVec 2) : Option Status :=
  if c = 0b00#2 then some .ok
  else if c = 0b01#2 then some .invalidLength
  else if c = 0b10#2 then some .rejected
  else none

/-- A host's reading of the response at the front of a byte stream from RSP, with the bytes after it: none
if bytes are missing or the header is one a conforming CORE never sends (R74, R75, U6; log entry 21). -/
def decodeResponse : List Byte → Option (Response × List Byte)
  | b3 :: b2 :: b1 :: b0 :: tail =>
    let q := wordOfBytes b3 b2 b1 b0
    if q.extractLsb' 10 18 = 0#18 ∧ b0.toNat ≤ tail.length then
      (statusOfCode (q.extractLsb' 8 2)).map
        fun st => (⟨opField q, st, tail.take b0.toNat⟩, tail.drop b0.toNat)
    else none
  | _ => none

/-! ### Commands that are not executed (spec/43_transformer_commands.md rule R119) -/

/-- A command that is not enabled: the response Rejected and no other change (R119, R161). -/
def reject (op : BitVec 4) (s : State) : State := respond op .rejected [] s

/-- A header that does not decode: Rejected with the header's `op` echoed (R78, R79). -/
def rejectHeader (h : Word) (s : State) : State := reject (opField h) s

/-- Which command is enabled in which state, the table of R112; the operands play no part. -/
def enabled : Instr → Fsm → Bool
  | .start _ _ _ _, .idle => true
  | .start _ _ _ _, .ready => false
  | .start _ _ _ _, .processing => false
  | .start _ _ _ _, .done => true
  | .start _ _ _ _, .failed => true
  | .seg _, .idle => false
  | .seg _, .ready => true
  | .seg _, .processing => true
  | .seg _, .done => false
  | .seg _, .failed => false
  | .finish, .idle => false
  | .finish, .ready => true
  | .finish, .processing => true
  | .finish, .done => false
  | .finish, .failed => false
  | .abort, _ => true
  | .stat, _ => true

/-- Run `k` if the command is enabled, else reject it (R112, R119, R156 step 2). -/
def whenEnabled (i : Instr) (s : State) (k : Host.Outcome State Fault Refusal) :
    Host.Outcome State Fault Refusal :=
  if enabled i s.fsm = true then k else .next (reject (opOf i) s)

/-! ### Every item at its reset value (rules R116, R157, R171) -/

/-- The eight state items at their reset values (R39), the observation and the ports as they are. -/
def clearItems (s : State) : State :=
  { s with fsm := .idle, R := none, K := none, DIR := none, S := none, ACC := [], SHORT := false,
           ERR := .none }

/-! ### The exception InvalidLength (spec/60_exceptions.md rules R150 to R162)

There is no return from it: nothing is saved (R153), and the Failed state is left by START, ABORT or
reset (R159), which are `execStart`, `execAbort` and `resetEvent`. -/

/-- `Fail()`: the entry sequence of `raise InvalidLength`, with its response (R157). -/
def fail (op : BitVec 4) (s : State) : State :=
  respond op .invalidLength [] { clearItems s with fsm := .failed, ERR := .invalidLength }

/-! ### Reading an item that may hold `NONE` (spec/00_scope.md rule R12) -/

/-- Read a state item and go on with its value; `NONE` is a fault of the model (R12, D27). -/
def readItem {α : Type} (item : Item) (v : Option α) (k : α → Host.Outcome State Fault Refusal) :
    Host.Outcome State Fault Refusal :=
  match v with
  | some a => k a
  | none => .fault (.readNone item)

/-! ### The primitive port (spec/41_keystream_generator.md rules R98, R101) -/

/-- The request `(K, R)` on PRIM and its reply, recorded in PLOG (R30, R98). -/
def logRequest (K : Bytes Config.keyLen) (R : Bytes Config.blockSize) (s : State) : State :=
  { s with PLOG := s.PLOG ++ [⟨K, R, Config.E K R⟩] }

/-! ### The reset event and the host's ports (spec/70_reset_and_hazards.md rules R170 to R172) -/

/-- The reset event: every item and the observation at its reset value, no response (R170, R171). The
responses the host already has stay with it (log entry 6). -/
def resetEvent (s : State) : State := { clearItems s with PLOG := [] }

/-- The bytes on CMD before the first reset, and the events from that reset on (R172). -/
def splitAtReset : List HostEvent → List Byte × List HostEvent
  | [] => ([], [])
  | .reset :: es => ([], .reset :: es)
  | .byte b :: es => (b :: (splitAtReset es).1, (splitAtReset es).2)

/-- Bytes as host events on CMD. -/
def sendBytes (bs : List Byte) : List HostEvent := bs.map .byte

/-- What the CORE finds when it looks at its ports. -/
inductive Fetched where
  /-- A whole command; the events after it remain. -/
  | command (i : Instr) (rest : List HostEvent)
  /-- A header that does not decode; it has no payload. -/
  | illegal (header : Word) (rest : List HostEvent)
  /-- A reset; a command begun before it and not complete is discarded (R172). -/
  | reset (rest : List HostEvent)
  /-- Nothing complete yet: the CORE waits (log entry 4). -/
  | waiting
  deriving DecidableEq, Repr

/-- Take the next command or reset in the order of arrival (R59, R84, R172; log entry 5). -/
def fetch (es : List HostEvent) : Fetched :=
  match decode (splitAtReset es).1 with
  | .instr i rest => .command i (sendBytes rest ++ (splitAtReset es).2)
  | .illegal _ h rest => .illegal h (sendBytes rest ++ (splitAtReset es).2)
  | .incomplete =>
    match (splitAtReset es).2 with
    | .reset :: rest => .reset rest
    | _ => .waiting

/-- The state with its unread host events replaced. -/
def setPorts (es : List HostEvent) (s : State) : State := { s with CMD := es }

end Sys2Proof.Machine
end

