-- ==== Sys2Proof/Machine/Invocation.lean ====
section
/-! DEFINITION. The commands that begin and end an invocation: START, FINISH and ABORT
(spec/43_transformer_commands.md rules R113, R115, R116). -/

namespace Sys2Proof.Machine

/-- The state a successful START leaves: a fresh invocation in Ready (R113, R144). -/
def beginInvocation (dir : Direction) (key iv : List Byte) (segSize : Byte) (s : State)
    (h : StartInContract key iv segSize) : State :=
  { s with
    fsm := .ready
    K := some (Bytes.ofList key h.2.1)
    R := some (seed iv h.2.2)
    DIR := some dir
    S := some ⟨segSize.toNat, h.1.1, h.1.2⟩
    ACC := []
    SHORT := false
    ERR := .none }

/-- START (R113): rejected when an invocation is live, InvalidLength when a length is out of contract,
else a new invocation. -/
def execStart (dir : Direction) (key iv : List Byte) (segSize : Byte) (s : State) :
    Host.Outcome State Fault Refusal :=
  whenEnabled (.start dir key iv segSize) s <|
    .next <|
      if h : StartInContract key iv segSize then
        respond 0b0001#4 .ok [] (beginInvocation dir key iv segSize s h)
      else fail 0b0001#4 s

/-- FINISH (R115): release the register and the key; `DIR`, `S`, `SHORT` and `ACC` keep their values. -/
def execFinish (s : State) : Host.Outcome State Fault Refusal :=
  whenEnabled .finish s <|
    .next (respond 0b0011#4 .ok [] { s with R := none, K := none, fsm := .done })

/-- ABORT (R116): every state item at its reset value; the observation PLOG stays. -/
def execAbort (s : State) : Host.Outcome State Fault Refusal :=
  whenEnabled .abort s <| .next (respond 0b0100#4 .ok [] (clearItems s))

end Sys2Proof.Machine
end

