-- ==== Sys2Proof/Machine/Segment.lean ====
section
/-! DEFINITION. The command SEG, one pass of the segment loop (spec/43_transformer_commands.md rule
R114, in the order of spec/20_memory.md rule R60). -/

namespace Sys2Proof.Machine

/-- A SEG whose operand is in contract, after its items are read: DERIVE, COMBINE, FBSEL, ADVANCE, the
append to `ACC`, the update of `SHORT` and `fsm`, and the response (R60, R114). -/
def processSegment (data : List Byte) (S : SegSize) (R : Bytes Config.blockSize)
    (K : Bytes Config.keyLen) (dir : Direction) (s : State) (h : InBlock data.length Config.blockSize) :
    State :=
  let x : Bytes data.length := Bytes.ofList data rfl
  let y := (segmentOutput Config.E K R x h).toList
  respond 0b0010#4 .ok y
    { logRequest K R s with
      R := some (segmentRegister Config.E dir K R x h)
      ACC := s.ACC ++ y
      SHORT := shortAfter s.SHORT data.length S
      fsm := .processing }

/-- SEG (R114): rejected outside a live invocation, InvalidLength on an empty or too long segment or one
after a short segment, else one segment is processed. -/
def execSeg (data : List Byte) (s : State) : Host.Outcome State Fault Refusal :=
  whenEnabled (.seg data) s <|
    readItem .S s.S fun S =>
      if h : SegInContract data S s.SHORT then
        readItem .R s.R fun R =>
          readItem .K s.K fun K =>
            readItem .DIR s.DIR fun dir =>
              .next (processSegment data S R K dir s ⟨h.1.1, h.1.2.trans S.le_blockSize⟩)
      else .next (fail 0b0010#4 s)

end Sys2Proof.Machine
end

