-- ==== Sys2Proof/Machine/Status.lean ====
section
/-! DEFINITION. The command STAT (spec/43_transformer_commands.md rule R117). -/

namespace Sys2Proof.Machine

/-- STAT (R117): respond with the four bytes of STATUS, most significant first; nothing is written. -/
def execStat (s : State) : Host.Outcome State Fault Refusal :=
  whenEnabled .stat s <| .next (respond 0b0101#4 .ok (wordBytes (statusWord s)) s)

end Sys2Proof.Machine
end

