-- ==== Sys2Proof/Machine/Dispatch.lean ====
section
/-! DEFINITION. One arm per command (spec/30_encoding.md rule R77). -/

namespace Sys2Proof.Machine

def exec (i : Instr) (s : State) : Host.Outcome State Fault Refusal :=
  match i with
  | .start dir key iv segSize => Sys2Proof.Machine.execStart dir key iv segSize s
  | .seg data => Sys2Proof.Machine.execSeg data s
  | .finish => Sys2Proof.Machine.execFinish s
  | .abort => Sys2Proof.Machine.execAbort s
  | .stat => Sys2Proof.Machine.execStat s

end Sys2Proof.Machine
end

