-- ==== Sys2Proof/Machine/Step.lean ====
section
/-! DEFINITION. One step of the CORE: one command from its header to its response, or one reset, taken in
the order in which the host issued them (spec/00_scope.md rule R15; spec/20_memory.md rules R55, R59;
spec/30_encoding.md rule R84; spec/70_reset_and_hazards.md rules R170 to R172). -/

namespace Sys2Proof.Machine

/-- One step: take the next command or reset from the ports and perform it. With neither there, the CORE
stays as it is for as long as the host leaves it so (R164, log entry 4). -/
def step (s : State) : Host.Outcome State Fault Refusal :=
  match fetch s.CMD with
  | .command i rest => exec i (setPorts rest s)
  | .illegal h rest => .next (rejectHeader h (setPorts rest s))
  | .reset rest => .next (resetEvent (setPorts rest s))
  | .waiting => .next s

/-- `s` with the instruction of the bits `w` of an opcode-table row sent next on CMD (log entry 12). -/
def State.withFetchWord (s : State) (nbits w : Nat) : State :=
  setPorts (sendBytes (tableWordBytes nbits w) ++ s.CMD) s

end Sys2Proof.Machine
end

