-- ==== Sys2Proof/Machine/Transform.lean ====
section
/-! DEFINITION. The transform as a whole: cutting the input into segments, the transform function, and the
pseudo-instruction TRANSFORM with its abbreviations ENCRYPT and DECRYPT
(spec/44_transform_and_laws.md rules R130 to R132, R145; spec/30_encoding.md rule R83). -/

namespace Sys2Proof.Machine

/-! ### Chunking (R130) -/

/-- A segment of an input cut with segment size `s`: never empty, never longer than `s` (R130). -/
abbrev Segment (s : Nat) := {x : List Byte // InBlock x.length s}

/-- Cut off segments of `s` bytes until the input is exhausted; `fuel` bounds their number. -/
def chunkFuel (s : Nat) (hs : 1 ≤ s) : Nat → List Byte → List (Segment s)
  | 0, _ => []
  | _ + 1, [] => []
  | fuel + 1, b :: x =>
    ⟨(b :: x).take s, by simp only [List.length_take, List.length_cons]; omega⟩ ::
      chunkFuel s hs fuel ((b :: x).drop s)

/-- `chunk(x, s)`: the segments of the input, the last one possibly shorter (R130). An input of `n` bytes
has at most `n` segments. -/
def chunk (s : Nat) (hs : 1 ≤ s) (x : List Byte) : List (Segment s) := chunkFuel s hs x.length x

/-! ### The transform function (R132), for any block size, key length and primitive -/

section
variable {KLEN B s : Nat} (E : Bytes KLEN → Bytes B → Bytes B) (dir : Direction) (K : Bytes KLEN)
  (hs : s ≤ B)

/-- `Y_j`: the output of one segment from the register `R_j` (R132). -/
def outputOf (R : Bytes B) (X : Segment s) : List Byte :=
  (segmentOutput E K R (Bytes.ofList X.val rfl) ⟨X.property.1, X.property.2.trans hs⟩).toList

/-- `R_(j+1)`: the register after one segment (R132). -/
def registerOf (R : Bytes B) (X : Segment s) : Bytes B :=
  segmentRegister E dir K R (Bytes.ofList X.val rfl) ⟨X.property.1, X.property.2.trans hs⟩

/-- `Y_0 ++ ... ++ Y_(m-1)`: the output of a list of segments from the register `R` (R132). -/
def segmentsOutput : Bytes B → List (Segment s) → List Byte
  | _, [] => []
  | R, X :: Xs => outputOf E K hs R X ++ segmentsOutput (registerOf E dir K hs R X) Xs

/-- The register after a list of segments (R132, R134). -/
def segmentsRegister : Bytes B → List (Segment s) → Bytes B
  | R, [] => R
  | R, X :: Xs => segmentsRegister (registerOf E dir K hs R X) Xs

/-- The requests on PRIM that a list of segments makes, `(key, R_j, O_j)` in order (R102, R138). -/
def segmentsRequests : Bytes B → List (Segment s) → List (Bytes KLEN × Bytes B × Bytes B)
  | _, [] => []
  | R, X :: Xs => (K, R, E K R) :: segmentsRequests (registerOf E dir K hs R X) Xs

end

/-- The last `B` bytes of `iv ++ C`: the register after the ciphertext bytes `C` (R134). -/
def lastBlock {B : Nat} (iv : Bytes B) (C : List Byte) : Bytes B :=
  Bytes.ofList ((iv.toList ++ C).drop C.length) (by simp)

/-- `transform(dir, key, iv, s, x)`: the failure InvalidLength when a length is out of contract, else the
output (R132). -/
def transform {KLEN B : Nat} (E : Bytes KLEN → Bytes B → Bytes B) (dir : Direction)
    (key iv : List Byte) (s : Nat) (x : List Byte) : Except ErrKind (List Byte) :=
  if h : InBlock s B ∧ key.length = KLEN ∧ iv.length = B then
    .ok (segmentsOutput E dir (Bytes.ofList key h.2.1) h.1.2 (seed iv h.2.2) (chunk s h.1.1 x))
  else .error .invalidLength

/-- `ENCRYPT` as a function: the transform of the plaintext (R145). -/
def encrypt {KLEN B : Nat} (E : Bytes KLEN → Bytes B → Bytes B) (key iv : List Byte) (s : Nat)
    (plaintext : List Byte) : Except ErrKind (List Byte) := transform E .encrypt key iv s plaintext

/-- `DECRYPT` as a function: the transform of the ciphertext (R145). -/
def decrypt {KLEN B : Nat} (E : Bytes KLEN → Bytes B → Bytes B) (key iv : List Byte) (s : Nat)
    (ciphertext : List Byte) : Except ErrKind (List Byte) := transform E .decrypt key iv s ciphertext

/-! ### The pseudo-instruction TRANSFORM (R83, R131) -/

/-- How a TRANSFORM ends for the host that issued it (R131). -/
inductive TransformEnd where
  /-- The result: the outputs of its SEG commands, in order. -/
  | result (y : List Byte)
  /-- The failure InvalidLength. -/
  | failure (e : ErrKind)
  /-- A command was rejected: the pseudo-instruction has no result. -/
  | noResult
  deriving DecidableEq, Repr

/-- Issue one SEG per segment, then FINISH, and collect the payloads of the responses (R131). -/
def issueSegments : List (List Byte) → List Byte → State →
    Host.Outcome (TransformEnd × State) Fault Refusal
  | [], y, s =>
    match exec .finish s with
    | .next t => .next (.result y, t)
    | .fault f => .fault f
    | .refused r => .refused r
  | X :: Xs, y, s =>
    match exec (.seg X) s with
    | .next t =>
      match t.RSP.getLast? with
      | some ⟨_, .ok, Y⟩ => issueSegments Xs (y ++ Y) t
      | some ⟨_, .invalidLength, _⟩ => .next (.failure .invalidLength, t)
      | _ => .next (.noResult, t)
    | .fault f => .fault f
    | .refused r => .refused r

/-- `TRANSFORM dir, s, key, iv, in=x`: START, then, if it succeeds, the segments of `chunk(x, s)` and
FINISH (R131). -/
def execTransform (dir : Direction) (key iv : List Byte) (segSize : Byte) (x : List Byte) (s : State) :
    Host.Outcome (TransformEnd × State) Fault Refusal :=
  match exec (.start dir key iv segSize) s with
  | .next t =>
    match t.RSP.getLast? with
    | some ⟨_, .ok, _⟩ =>
      if h : 1 ≤ segSize.toNat then
        issueSegments ((chunk segSize.toNat h x).map Subtype.val) [] t
      else .next (.noResult, t)
    | some ⟨_, .invalidLength, _⟩ => .next (.failure .invalidLength, t)
    | _ => .next (.noResult, t)
  | .fault f => .fault f
  | .refused r => .refused r

/-- The command sequence a TRANSFORM whose START succeeds expands to (R131). -/
def transformCommands (dir : Direction) (key iv : List Byte) (segSize : Byte)
    (h : 1 ≤ segSize.toNat) (x : List Byte) : List Instr :=
  .start dir key iv segSize ::
    ((chunk segSize.toNat h x).map (fun X => .seg X.val) ++ [.finish])

/-- Execute a command sequence, each command on the state the one before left (R59). -/
def execAll : List Instr → State → Host.Outcome State Fault Refusal
  | [], s => .next s
  | i :: is, s =>
    match exec i s with
    | .next t => execAll is t
    | .fault f => .fault f
    | .refused r => .refused r

/-- A command sequence as the bytes the host sends on CMD, in order (R59, R65). -/
def encodeAll (is : List Instr) : List Byte := is.flatMap encode

end Sys2Proof.Machine
end

