-- ==== Sys2Proof/Machine/Assembler.lean ====
section
/-! DEFINITION. The textual form of command sequences and responses (spec/30_encoding.md rules R82,
R83), read and written as lists of characters. It is the spec's notation, no part of the CORE. -/

namespace Sys2Proof.Machine

/-- A line of a command sequence: a command, or a pseudo-instruction (R82, R83, R145). -/
inductive AsmLine where
  | command (i : Instr)
  | transform (dir : Direction) (key iv : List Byte) (segSize : Byte) (input : List Byte)
  deriving DecidableEq, Repr

/-- The text up to the first `c`, and the text after it if there is one. -/
def splitFirst (c : Char) : List Char → List Char × Option (List Char)
  | [] => ([], none)
  | a :: t => if a = c then ([], some t) else (a :: (splitFirst c t).1, (splitFirst c t).2)

/-- The pieces of a text between the characters `c`. -/
def splitAll (c : Char) : List Char → List (List Char)
  | [] => [[]]
  | a :: t =>
    if a = c then [] :: splitAll c t
    else match splitAll c t with
      | [] => [[a]]
      | p :: ps => (a :: p) :: ps

/-- A text without the spaces at its two ends. -/
def trimSpaces (t : List Char) : List Char :=
  ((t.dropWhile (· = ' ')).reverse.dropWhile (· = ' ')).reverse

/-- The text after the expected first characters. -/
def afterLiteral : List Char → List Char → Option (List Char)
  | [], t => some t
  | _ :: _, [] => none
  | c :: cs, a :: t => if a = c then afterLiteral cs t else none

/-- The digits of `<hex>` in the order of their values, as R82 writes them; the first ten are those of `<n>`. -/
def digits : List Char := "0123456789ABCDEF".toList

/-- The value of a decimal digit: its place among the first ten. -/
def decimalDigit (c : Char) : Option Nat := (digits.take 10).idxOf? c

/-- The value of a hexadecimal digit: its place among the digits, either case (log entry 16). -/
def hexDigit (c : Char) : Option Nat := digits.idxOf? c.toUpper

/-- `<hex>`: byte values of two digits each, byte 0 first, spaces between them allowed (R82). -/
def parseHex : List Char → Option (List Byte)
  | [] => some []
  | ' ' :: t => parseHex t
  | a :: b :: t => do
    let x ← hexDigit a
    let y ← hexDigit b
    let rest ← parseHex t
    return BitVec.ofNat 8 (16 * x + y) :: rest
  | [_] => none

/-- The value of a text of decimal digits, read on from `acc`. -/
def parseDigits (acc : Nat) : List Char → Option Nat
  | [] => some acc
  | c :: t => do
    let d ← decimalDigit c
    parseDigits (10 * acc + d) t

/-- `<n>`: a decimal number in `0..255` (R82). -/
def parseByte (t : List Char) : Option Byte := do
  let n ← if t = [] then none else parseDigits 0 t
  if n ≤ 255 then some (BitVec.ofNat 8 n) else none

/-- `ENC` or `DEC` (R82). -/
def parseDirection (t : List Char) : Option Direction :=
  if t = ['E', 'N', 'C'] then some .encrypt
  else if t = ['D', 'E', 'C'] then some .decrypt
  else none

/-- The operands `s=<n>, key=<hex>, iv=<hex>`, and `in=<hex>` where the form has it (R82, R83). -/
def parseOperands : List (List Char) → Option (Byte × List Byte × List Byte × Option (List Byte))
  | [n, k, v] => do
    let n ← parseByte (← afterLiteral ['s', '='] n)
    let k ← parseHex (← afterLiteral ['k', 'e', 'y', '='] k)
    let v ← parseHex (← afterLiteral ['i', 'v', '='] v)
    return (n, k, v, none)
  | [n, k, v, x] => do
    let n ← parseByte (← afterLiteral ['s', '='] n)
    let k ← parseHex (← afterLiteral ['k', 'e', 'y', '='] k)
    let v ← parseHex (← afterLiteral ['i', 'v', '='] v)
    let x ← parseHex (← afterLiteral ['i', 'n', '='] x)
    return (n, k, v, some x)
  | _ => none

/-- A TRANSFORM from its operands, which must include `in=` (R83). -/
def parseTransform (dir : Direction) (parts : List (List Char)) : Option AsmLine :=
  match parseOperands parts with
  | some (n, k, v, some x) => some (.transform dir k v n x)
  | _ => none

/-- A START from its operands, which have no `in=` (R82). -/
def parseStart (dir : Direction) (parts : List (List Char)) : Option AsmLine :=
  match parseOperands parts with
  | some (n, k, v, none) => some (.command (.start dir k v n))
  | _ => none

/-- The form of a line from its first word, which is followed by `rest` (R82, R83). -/
def parseForm (word rest : List Char) : Option AsmLine :=
  let parts := (splitAll ',' rest).map trimSpaces
  if word = ['S', 'T', 'A', 'R', 'T'] then
    match parts with
    | d :: ps => do parseStart (← parseDirection d) ps
    | [] => none
  else if word = ['T', 'R', 'A', 'N', 'S', 'F', 'O', 'R', 'M'] then
    match parts with
    | d :: ps => do parseTransform (← parseDirection d) ps
    | [] => none
  else if word = ['E', 'N', 'C', 'R', 'Y', 'P', 'T'] then parseTransform .encrypt parts
  else if word = ['D', 'E', 'C', 'R', 'Y', 'P', 'T'] then parseTransform .decrypt parts
  else if word = ['S', 'E', 'G'] then (parseHex rest).map fun x => .command (.seg x)
  else if word = ['F', 'I', 'N', 'I', 'S', 'H'] ∧ rest = [] then some (.command .finish)
  else if word = ['A', 'B', 'O', 'R', 'T'] ∧ rest = [] then some (.command .abort)
  else if word = ['S', 'T', 'A', 'T'] ∧ rest = [] then some (.command .stat)
  else none

/-- The lengths of a line's operands fit the fields that carry them (R67, R68). -/
def AsmLine.encodable : AsmLine → Bool
  | .command i => i.wellFormed
  | .transform _ key iv _ _ => fitsLengthField key && fitsLengthField iv

/-- One line: `some none` for a blank line or a comment, `none` for a line that is no form of R82 or R83
(log entry 16). -/
def parseLine (line : List Char) : Option (Option AsmLine) :=
  let t := trimSpaces (splitFirst '#' line).1
  if t = [] then some none
  else
    match parseForm (splitFirst ' ' t).1 (trimSpaces ((splitFirst ' ' t).2.getD [])) with
    | some a => if a.encodable then some (some a) else none
    | none => none

/-- The lines of a text, one command per line (R82). -/
def parseText (text : List Char) : Option (List AsmLine) :=
  ((splitAll '\n' text).mapM parseLine).map fun ls => ls.filterMap id

/-- What issuing a line does: a command is executed, a pseudo-instruction expanded (R82, R83, R131). -/
def issueLine (a : AsmLine) (s : State) : Host.Outcome State Fault Refusal :=
  match a with
  | .command i => exec i s
  | .transform dir key iv segSize x =>
    match execTransform dir key iv segSize x s with
    | .next r => .next r.2
    | .fault f => .fault f
    | .refused r => .refused r

/-- The hexadecimal digit of a number below 16. -/
def hexChar (n : Nat) : Char := digits.getD n '0'

/-- `<hex>` as written: two digits a byte, byte 0 first (R82). -/
def hexText (x : List Byte) : List Char :=
  x.flatMap fun b => [hexChar (b.toNat / 16), hexChar (b.toNat % 16)]

/-- A response as written on the line after its command (R82). -/
def responseText (r : Response) : List Char :=
  match r.status with
  | .ok => ['-', '>', ' ', 'O', 'K', ' '] ++ hexText r.data
  | .invalidLength =>
    ['-', '>', ' ', 'I', 'n', 'v', 'a', 'l', 'i', 'd', 'L', 'e', 'n', 'g', 't', 'h']
  | .rejected => ['-', '>', ' ', 'R', 'e', 'j', 'e', 'c', 't', 'e', 'd']

end Sys2Proof.Machine
end

