-- ==== Sys2Proof/Machine/Instances.lean ====
section
/-! DEFINITION. Several CORE instances side by side: the product of as many machines, which share no state
and no port (spec/20_memory.md rule R64; spec/60_exceptions.md rule R166). That all of them have the block
size, the key length and the primitive of `Config` is the model's choice (DESIGN CHOICE, log entry 22). -/

namespace Sys2Proof.Machine

/-- One step of an instance; one that has stopped stays stopped. -/
def stepOutcome : Host.Outcome State Fault Refusal → Host.Outcome State Fault Refusal
  | .next s => step s
  | .fault f => .fault f
  | .refused r => .refused r

/-- One step of instance `k` of several, the others left alone (R64). -/
def stepInstance (k : Nat) (ms : List (Host.Outcome State Fault Refusal)) :
    List (Host.Outcome State Fault Refusal) := ms.modify k stepOutcome

/-- Steps of several instances in the order of a schedule, which names the instance of each step (R64). All
instances have the parameters of `Config` (DESIGN CHOICE, log entry 22). -/
def runSchedule (schedule : List Nat) (ms : List (Host.Outcome State Fault Refusal)) :
    List (Host.Outcome State Fault Refusal) := schedule.foldl (fun ms k => stepInstance k ms) ms

end Sys2Proof.Machine
end

