-- ==== Sys2Proof/Safety.lean ====
section
/-! DEFINITION. The terms claims about the CORE use: the state invariant (spec/10_state.md rule R37),
live invocations and final states (spec/00_scope.md section 7; spec/43_transformer_commands.md rule
R118), and what a safe step is. -/

namespace Sys2Proof.Machine

/-- Exactly one row of the table of R37 describes the state; `fsm` says which. -/
def State.invariant (s : State) : Bool :=
  match s.fsm with
  | .idle =>
    s.R.isNone && s.K.isNone && s.DIR.isNone && s.S.isNone && s.ACC.isEmpty && !s.SHORT &&
      decide (s.ERR = .none)
  | .ready =>
    s.R.isSome && s.K.isSome && s.DIR.isSome && s.S.isSome && s.ACC.isEmpty && !s.SHORT &&
      decide (s.ERR = .none)
  | .processing =>
    s.R.isSome && s.K.isSome && s.DIR.isSome && s.S.isSome && !s.ACC.isEmpty &&
      decide (s.ERR = .none)
  | .done =>
    s.R.isNone && s.K.isNone && s.DIR.isSome && s.S.isSome && decide (s.ERR = .none)
  | .failed =>
    s.R.isNone && s.K.isNone && s.DIR.isNone && s.S.isNone && s.ACC.isEmpty && !s.SHORT &&
      decide (s.ERR = .invalidLength)

/-- An invocation is live: `fsm` is Ready or Processing (spec/00_scope.md section 7). -/
def State.live (s : State) : Bool :=
  match s.fsm with
  | .idle => false
  | .ready => true
  | .processing => true
  | .done => false
  | .failed => false

/-- The end of a run: no live invocation and no command outstanding (R118). What is outstanding on the ports is
the model's choice (DESIGN CHOICE, log entry 23): whatever a step would take, a reset included, but not part
of a command whose other bytes have not been sent. -/
def State.final (s : State) : Bool := !s.live && decide (fetch s.CMD = .waiting)

/-- A step is safe when it answers a next state: the CORE has no stuck state (R160). -/
def safeStep (s : State) : Prop := ∃ t, step s = .next t

end Sys2Proof.Machine
end

