-- ==== Sys2Proof/Certificates/Slice0/Obligations.lean ====
section
/-! DEFINITION. The statements about the CORE for the provers, each from the rules of spec/ its docstring
names. The fields `CMD` and `RSP`, in which the host's traffic and the responses stand, are the model's own
(log entries 3 and 6). -/

open Sys2Proof Sys2Proof.Machine

/-! ### Reset and the state invariant -/

/-- Every state item has the reset value R39 gives it, and STATUS reads 0. -/
def Obligations.ResetValues : Prop :=
  State.reset.fsm = .idle ∧ State.reset.R = none ∧ State.reset.K = none ∧ State.reset.DIR = none ∧
  State.reset.S = none ∧ State.reset.ACC = [] ∧ State.reset.SHORT = false ∧ State.reset.ERR = .none ∧
  State.reset.PLOG = [] ∧ statusWord State.reset = 0x00000000#32

/-- The state right after reset is in a row of the table of R37. -/
def Obligations.ResetMeetsInvariant : Prop := State.reset.invariant = true

/-- Every step keeps the invariant of R37: commands, rejected headers, resets and waiting alike. -/
def Obligations.StepKeepsInvariant : Prop :=
  ∀ s t : State, s.invariant = true → step s = .next t → t.invariant = true

/-- The CORE has no stuck state (R160): where the invariant of R37 holds, a step answers a next state, so
no enabled command reads an item that holds `NONE` (R12). -/
def Obligations.InvariantStepIsSafe : Prop :=
  ∀ s : State, s.invariant = true → safeStep s

/-- `ERR` is InvalidLength exactly when `fsm` is Failed (R29), in every state the invariant allows. -/
def Obligations.ErrExactlyWhenFailed : Prop :=
  ∀ s : State, s.invariant = true → (s.ERR = .invalidLength ↔ s.fsm = .failed)

/-! ### Encodings -/

/-- Headers of the spec's own table of examples, written out bit by bit, decode to what they stand for. -/
def Obligations.ExampleHeadersDecode : Prop :=
  decodeHeader 0b00010000001000000001000000010000#32 = .ok (.start .encrypt 32 16 16) ∧
  decodeHeader 0b00011000001000000001000000001000#32 = .ok (.start .decrypt 32 16 8) ∧
  decodeHeader 0b00100000000000000000000011111111#32 = .ok (.seg 255) ∧
  decodeHeader 0b00110000000000000000000000000000#32 = .ok .finish ∧
  decodeHeader 0b01000000000000000000000000000000#32 = .ok .abort ∧
  decodeHeader 0b01010000000000000000000000000000#32 = .ok .stat ∧
  decodeHeader 0b00010111001000000001000000010000#32 = .error .reservedBits ∧
  decodeHeader 0b00000000000000000000000000000000#32 = .error .reservedOpcode

/-- Decoding the bytes of a well-formed command gives the command back, every operand at every value, with
whatever bytes follow untouched. -/
def Obligations.DecodeOfEncode : Prop :=
  ∀ (i : Instr) (rest : List Byte), i.wellFormed = true → decode (encode i ++ rest) = .instr i rest

/-- Each command has one encoding: what the decoder reads as a command is the encoding of that command,
which is well formed. -/
def Obligations.EncodeOfDecode : Prop :=
  ∀ (i : Instr) (bs rest : List Byte), decode bs = .instr i rest →
    i.wellFormed = true ∧ bs = encode i ++ rest

/-- The layout of a START header (R67): each field of the word stands at its bits. -/
def Obligations.StartHeaderLayout : Prop :=
  ∀ (dir : Direction) (keyLen ivLen segSize : Byte),
    let h := encodeHeader (.start dir keyLen ivLen segSize)
    h.extractLsb' 28 4 = 0b0001#4 ∧
    h.extractLsb' 27 1 = (match dir with | .encrypt => 0#1 | .decrypt => 1#1) ∧
    h.extractLsb' 24 3 = 0b000#3 ∧ h.extractLsb' 16 8 = keyLen ∧ h.extractLsb' 8 8 = ivLen ∧
    h.extractLsb' 0 8 = segSize ∧ payloadLength h = keyLen.toNat + ivLen.toNat

/-- Decoding agrees with the opcode map (R77, R84): a header decodes exactly when it selects a row, it never
selects two, and a command's own header selects the row of its mnemonic. -/
def Obligations.DecodingFollowsOpcodeMap : Prop :=
  (∀ h : Word, (∃ hd, decodeHeader h = .ok hd) ↔ ∃ r ∈ opcodeMap, r.selects h = true) ∧
  (∀ h : Word, ∀ r ∈ opcodeMap, ∀ r' ∈ opcodeMap, r.selects h = true → r'.selects h = true → r = r') ∧
  (∀ i : Instr, ∃ r ∈ opcodeMap, r.mnemonic = mnemonicOf i ∧
    r.selects (encodeHeader (headerOf i)) = true)

/-- Reserved opcodes and reserved bits (R78, R79): a header with `op` 0 or above 5 is refused as a reserved
opcode; one with `op` 1 to 5 and a 1 in a bit its format reserves is refused for its reserved bits; and a
refused header has no payload. -/
def Obligations.ReservedHeadersRefused : Prop :=
  (∀ h : Word, ((opField h).toNat = 0 ∨ 6 ≤ (opField h).toNat) →
    decodeHeader h = .error .reservedOpcode ∧ payloadLength h = 0) ∧
  (∀ h : Word,
    ((opField h = 1#4 ∧ h.extractLsb' 24 3 ≠ 0#3) ∨ (opField h = 2#4 ∧ h.extractLsb' 8 20 ≠ 0#20) ∨
      ((opField h = 3#4 ∨ opField h = 4#4 ∨ opField h = 5#4) ∧ h.extractLsb' 0 28 ≠ 0#28)) →
    decodeHeader h = .error .reservedBits ∧ payloadLength h = 0)

/-- The layout of a response header (R74, R75). -/
def Obligations.ResponseHeaderLayout : Prop :=
  ∀ r : Response, r.data.length ≤ 255 →
    (responseHeader r).extractLsb' 28 4 = r.op ∧ (responseHeader r).extractLsb' 10 18 = 0#18 ∧
    (responseHeader r).extractLsb' 8 2 =
      (match r.status with | .ok => 0b00#2 | .invalidLength => 0b01#2 | .rejected => 0b10#2) ∧
    ((responseHeader r).extractLsb' 0 8).toNat = r.data.length

/-- A host reads back exactly the response the CORE sent, and nothing of what follows it (R74). -/
def Obligations.ResponseReadBack : Prop :=
  ∀ (r : Response) (rest : List Byte), r.data.length ≤ 255 →
    decodeResponse (responseBytes r ++ rest) = some (r, rest)

/-- The layout of the STATUS word (R76): every field, in every state. -/
def Obligations.StatusWordLayout : Prop :=
  ∀ s : State,
    (statusWord s).extractLsb' 0 3 = (match s.fsm with
      | .idle => 0#3 | .ready => 1#3 | .processing => 2#3 | .done => 3#3 | .failed => 4#3) ∧
    ((statusWord s).extractLsb' 3 1 = 1#1 ↔ s.ERR = .invalidLength) ∧
    ((statusWord s).extractLsb' 4 1 = 1#1 ↔ s.DIR = some .decrypt) ∧
    ((statusWord s).extractLsb' 5 1 = 1#1 ↔ s.SHORT = true) ∧
    (statusWord s).extractLsb' 6 2 = 0#2 ∧
    ((statusWord s).extractLsb' 8 8).toNat = (match s.S with | some S => S.val | none => 0) ∧
    (statusWord s).extractLsb' 16 16 = 0#16

/-- The example of R82: the text assembles to that START, header `0x10020403` and the six payload bytes. -/
def Obligations.AssemblyExample : Prop :=
  parseLine "START ENC, s=3, key=10 20, iv=A0 A1 A2 A3".toList =
    some (some (.command (.start .encrypt [0x10, 0x20] [0xA0, 0xA1, 0xA2, 0xA3] 3))) ∧
  encode (.start .encrypt [0x10, 0x20] [0xA0, 0xA1, 0xA2, 0xA3] 3) =
    [0x10, 0x02, 0x04, 0x03, 0x10, 0x20, 0xA0, 0xA1, 0xA2, 0xA3]

/-! ### The internal operations -/

/-- ADVANCE byte by byte (R91): the old bytes move `n` places to the front, the emitted segment comes at the
back. -/
def Obligations.AdvanceByteByByte : Prop :=
  ∀ {B n : Nat} (R : Bytes B) (x : Bytes n) (h : InBlock n B) (i : Nat) (hi : i < B),
    (advance R x h)[i] =
      if hl : i < B - n then R[i + n]'(by omega) else x[i - (B - n)]'(by omega)

/-- With a segment of the block's length ADVANCE replaces the whole register, `R' = c` (R91, R123). -/
def Obligations.AdvanceByWholeBlock : Prop :=
  ∀ {B : Nat} (R c : Bytes B) (h : InBlock B B), advance R c h = c

/-- DERIVE (R98): byte `i` of the keystream is byte `i` of `E(K, R)`. -/
def Obligations.DeriveTakesFirstBytes : Prop :=
  ∀ {KLEN B : Nat} (E : Bytes KLEN → Bytes B → Bytes B) (K : Bytes KLEN) (R : Bytes B) (n : Nat)
    (h : InBlock n B) (i : Nat) (hi : i < n), (derive E K R n h)[i] = (E K R)[i]'(by omega)

/-- COMBINE (R106) is exclusive or byte by byte. -/
def Obligations.CombineByteByByte : Prop :=
  ∀ {n : Nat} (x ks : Bytes n) (i : Nat) (hi : i < n), (combine x ks)[i] = x[i] ^^^ ks[i]

/-- The laws of exclusive or (R108), for byte sequences of one length: commutative, associative, zero leaves
the data, equal data gives zero, and the same keystream twice gives the data back. -/
def Obligations.CombineLaws : Prop :=
  ∀ {n : Nat} (x y z : Bytes n),
    combine x y = combine y x ∧ combine (combine x y) z = combine x (combine y z) ∧
    combine x (Vector.replicate n 0) = x ∧ combine x x = Vector.replicate n 0 ∧
    combine (combine x y) y = x

/-- In the packing of R50 byte `i` occupies bits `8*(n-1-i)+7` down to `8*(n-1-i)`, ADVANCE by `m` bytes is a
left shift by `8*m` bits with the segment entering at the least significant end, and the first `n` bytes of
`O` are its most significant `8*n` bits. -/
def Obligations.PackedAdvanceIsShift : Prop :=
  (∀ {n : Nat} (x : Bytes n) (i : Nat) (hi : i < n),
    (packed x).extractLsb' (8 * (n - 1 - i)) 8 = x[i]) ∧
  (∀ {B m : Nat} (R : Bytes B) (c : Bytes m) (h : InBlock m B),
    packed (advance R c h) = (packed R <<< (8 * m)) ||| (packed c).setWidth (8 * B)) ∧
  (∀ {KLEN B n : Nat} (E : Bytes KLEN → Bytes B → Bytes B) (K : Bytes KLEN) (R : Bytes B) (h : InBlock n B),
    packed (derive E K R n h) = (packed (E K R)).extractLsb' (8 * (B - n)) (8 * n))

/-! ### The commands -/

/-- Enablement (R112): a command the table of R112 does not list for the current state is not executed, which
is the response Rejected and nothing else (R119); one that it lists is never Rejected. -/
def Obligations.ExecutedExactlyWhenEnabled : Prop :=
  (∀ (i : Instr) (s : State),
    (match i with
      | .start _ _ _ _ => s.fsm = .ready ∨ s.fsm = .processing
      | .seg _ => s.fsm = .idle ∨ s.fsm = .done ∨ s.fsm = .failed
      | .finish => s.fsm = .idle ∨ s.fsm = .done ∨ s.fsm = .failed
      | .abort => False
      | .stat => False) →
    exec i s = .next { s with RSP := s.RSP ++ [⟨opOf i, .rejected, []⟩] }) ∧
  (∀ (i : Instr) (s t : State),
    (match i with
      | .start _ _ _ _ => s.fsm = .idle ∨ s.fsm = .done ∨ s.fsm = .failed
      | .seg _ => s.fsm = .ready ∨ s.fsm = .processing
      | .finish => s.fsm = .ready ∨ s.fsm = .processing
      | .abort => True
      | .stat => True) →
    exec i s = .next t → t.RSP.getLast?.map Response.status ≠ some .rejected)

/-- START (R113) in Idle, Done or Failed. With a key of `KLEN` bytes, an IV of `B` bytes and a segment size in
`1..B` it begins an invocation: key, register, direction and segment size take the operands, the accumulator
is emptied, the flags are cleared, and nothing else changes. With any length out of contract (R151) it leaves
exactly the state of `Fail()` (R157). In Ready and Processing it is rejected, whatever its operands. -/
def Obligations.StartBeginsInvocationOrFails : Prop :=
  (∀ (s : State) (dir : Direction) (K : Bytes Config.keyLen) (IV : Bytes Config.blockSize) (S : SegSize),
    (s.fsm = .idle ∨ s.fsm = .done ∨ s.fsm = .failed) →
    exec (.start dir K.toList IV.toList (BitVec.ofNat 8 S.val)) s =
      .next { s with
        fsm := .ready, K := some K, R := some IV, DIR := some dir, S := some S, ACC := [],
        SHORT := false, ERR := .none, RSP := s.RSP ++ [⟨1#4, .ok, []⟩] }) ∧
  (∀ (s : State) (dir : Direction) (key iv : List Byte) (segSize : Byte),
    (s.fsm = .idle ∨ s.fsm = .done ∨ s.fsm = .failed) →
    (key.length ≠ Config.keyLen ∨ iv.length ≠ Config.blockSize ∨ segSize.toNat < 1 ∨
      Config.blockSize < segSize.toNat) →
    exec (.start dir key iv segSize) s =
      .next { s with
        fsm := .failed, ERR := .invalidLength, R := none, K := none, DIR := none, S := none, ACC := [],
        SHORT := false, RSP := s.RSP ++ [⟨1#4, .invalidLength, []⟩] }) ∧
  (∀ (s : State) (dir : Direction) (key iv : List Byte) (segSize : Byte),
    (s.fsm = .ready ∨ s.fsm = .processing) →
    exec (.start dir key iv segSize) s = .next { s with RSP := s.RSP ++ [⟨1#4, .rejected, []⟩] })

/-- SEG (R114) in Ready or Processing, where the invocation's items hold values. With `1 <= len <= S` and no
short segment before, it makes one request on PRIM, answers the segment combined with the first `len` bytes
of the reply, appends that to the accumulator, advances the register with the ciphertext segment, sets SHORT
if the segment is shorter than `S`, and changes nothing else. With a length out of contract or after a short
segment (R152) it leaves exactly the state of `Fail()` (R157). In Idle, Done and Failed it is rejected. -/
def Obligations.SegProcessesSegmentOrFails : Prop :=
  (∀ (s : State) (data : List Byte) (S : SegSize) (R : Bytes Config.blockSize) (K : Bytes Config.keyLen)
    (dir : Direction),
    (s.fsm = .ready ∨ s.fsm = .processing) → s.S = some S → s.R = some R → s.K = some K →
    s.DIR = some dir → 1 ≤ data.length → data.length ≤ S.val → s.SHORT = false →
    let y := List.zipWith (fun a b => a ^^^ b) data ((Config.E K R).toList.take data.length)
    let c := match dir with | .encrypt => y | .decrypt => data
    ∃ R' : Bytes Config.blockSize, R'.toList = R.toList.drop data.length ++ c ∧
      exec (.seg data) s =
        .next { s with
          R := some R', ACC := s.ACC ++ y, SHORT := decide (data.length < S.val), fsm := .processing,
          PLOG := s.PLOG ++ [⟨K, R, Config.E K R⟩],
          RSP := s.RSP ++ [⟨2#4, .ok, y⟩] }) ∧
  (∀ (s : State) (data : List Byte) (S : SegSize),
    (s.fsm = .ready ∨ s.fsm = .processing) → s.S = some S →
    (data.length = 0 ∨ S.val < data.length ∨ s.SHORT = true) →
    exec (.seg data) s =
      .next { s with
        fsm := .failed, ERR := .invalidLength, R := none, K := none, DIR := none, S := none, ACC := [],
        SHORT := false, RSP := s.RSP ++ [⟨2#4, .invalidLength, []⟩] }) ∧
  (∀ (s : State) (data : List Byte), (s.fsm = .idle ∨ s.fsm = .done ∨ s.fsm = .failed) →
    exec (.seg data) s = .next { s with RSP := s.RSP ++ [⟨2#4, .rejected, []⟩] })

/-- FINISH (R115) in Ready or Processing: Done, the register and the key released, nothing else changed. In
Idle, Done and Failed it is rejected. -/
def Obligations.FinishReleasesRegisterAndKey : Prop :=
  (∀ s : State, (s.fsm = .ready ∨ s.fsm = .processing) →
    exec .finish s =
      .next { s with R := none, K := none, fsm := .done, RSP := s.RSP ++ [⟨3#4, .ok, []⟩] }) ∧
  (∀ s : State, (s.fsm = .idle ∨ s.fsm = .done ∨ s.fsm = .failed) →
    exec .finish s = .next { s with RSP := s.RSP ++ [⟨3#4, .rejected, []⟩] })

/-- ABORT (R116) in every state: every state item at its reset value, PLOG kept. -/
def Obligations.AbortRestoresIdle : Prop :=
  ∀ s : State,
    exec .abort s =
      .next { State.reset with
        PLOG := s.PLOG, CMD := s.CMD, RSP := s.RSP ++ [⟨4#4, .ok, []⟩] }

/-- STAT (R117) in every state: the four bytes of STATUS, most significant first, and no item changed. -/
def Obligations.StatReturnsStatusWord : Prop :=
  ∀ s : State,
    exec .stat s =
      .next { s with
        RSP := s.RSP ++ [⟨5#4, .ok,
          [(statusWord s).extractLsb' 24 8, (statusWord s).extractLsb' 16 8,
           (statusWord s).extractLsb' 8 8, (statusWord s).extractLsb' 0 8]⟩] }

/-- A SEG of a live invocation that would read an item holding `NONE` is a fault of the model, never a value
(R12, decision D27). The order of the reads, `S` before the length check and then `R`, `K` and `DIR`, is the
model's own (DEDUCED, log entry 8). -/
def Obligations.SegFaultsOnMissingItem : Prop :=
  ∀ (s : State) (data : List Byte) (S : SegSize), (s.fsm = .ready ∨ s.fsm = .processing) →
    (s.S = none → exec (.seg data) s = .fault (.readNone .S)) ∧
    (s.S = some S → 1 ≤ data.length → data.length ≤ S.val → s.SHORT = false →
      (s.R = none → exec (.seg data) s = .fault (.readNone .R)) ∧
      (s.R ≠ none → s.K = none → exec (.seg data) s = .fault (.readNone .K)) ∧
      (s.R ≠ none → s.K ≠ none → s.DIR = none → exec (.seg data) s = .fault (.readNone .DIR)))

/-- The frame of every command (the blank cells of the access table, R38): what a command's row leaves blank
it does not change; a SEG that does not fail keeps `K`, `DIR`, `S` and `ERR`. No command takes anything from
the host's ports beyond its own header and payload. -/
def Obligations.CommandFrame : Prop :=
  ∀ (i : Instr) (s t : State), exec i s = .next t →
    t.CMD = s.CMD ∧
    (match i with
      | .start _ _ _ _ => t.PLOG = s.PLOG
      | .seg _ => t.fsm ≠ .failed → t.K = s.K ∧ t.DIR = s.DIR ∧ t.S = s.S ∧ t.ERR = s.ERR
      | .finish => t.DIR = s.DIR ∧ t.S = s.S ∧ t.ACC = s.ACC ∧ t.SHORT = s.SHORT ∧ t.ERR = s.ERR ∧
          t.PLOG = s.PLOG
      | .abort => t.PLOG = s.PLOG
      | .stat => t.fsm = s.fsm ∧ t.R = s.R ∧ t.K = s.K ∧ t.DIR = s.DIR ∧ t.S = s.S ∧ t.ACC = s.ACC ∧
          t.SHORT = s.SHORT ∧ t.ERR = s.ERR ∧ t.PLOG = s.PLOG)

/-- Each command gives exactly one response, which echoes its operation; a payload comes only with OK, from
SEG as long as the segment sent, from STAT four bytes (R59, R74). -/
def Obligations.OneResponsePerCommand : Prop :=
  ∀ (i : Instr) (s t : State), exec i s = .next t →
    ∃ r : Response, t.RSP = s.RSP ++ [r] ∧ r.op = opField (encodeHeader (headerOf i)) ∧
      (r.status ≠ .ok → r.data = []) ∧
      (r.status = .ok → r.data.length =
        (match i with | .seg data => data.length | .stat => 4 | _ => 0))

/-- Each successful SEG makes exactly one request on PRIM, with the key and the register as they stood before
it; no other command and no failing or rejected SEG makes any (R102, R138). -/
def Obligations.OnePrimRequestPerSegment : Prop :=
  ∀ (i : Instr) (s t : State), exec i s = .next t →
    t.PLOG = s.PLOG ∧ (∀ data, i = .seg data → t.RSP.getLast?.map Response.status ≠ some .ok) ∨
    ∃ data K R, i = .seg data ∧ s.K = some K ∧ s.R = some R ∧
      t.RSP.getLast?.map Response.status = some .ok ∧ t.PLOG = s.PLOG ++ [⟨K, R, Config.E K R⟩]

/-- The transitions of `fsm` under the commands (R118), in every state the invariant allows. -/
def Obligations.FsmTransitions : Prop :=
  ∀ (i : Instr) (s t : State), s.invariant = true → exec i s = .next t →
    (match i with
      | .start _ key iv segSize =>
        if s.live = true then t.fsm = s.fsm
        else if key.length = Config.keyLen ∧ iv.length = Config.blockSize ∧ 1 ≤ segSize.toNat ∧
            segSize.toNat ≤ Config.blockSize then t.fsm = .ready
        else t.fsm = .failed
      | .seg data =>
        if s.live = true then
          (t.fsm = .processing ∧ 1 ≤ data.length ∧ s.SHORT = false ∧
              ∃ S, s.S = some S ∧ data.length ≤ S.val) ∨
            (t.fsm = .failed ∧ (data.length = 0 ∨ s.SHORT = true ∨
              ∃ S, s.S = some S ∧ S.val < data.length))
        else t.fsm = s.fsm
      | .finish => if s.live = true then t.fsm = .done else t.fsm = s.fsm
      | .abort => t.fsm = .idle
      | .stat => t.fsm = s.fsm)

/-- Key, direction and segment size do not change inside an invocation (R179): no step from a live state to a
live state writes `K`, `DIR` or `S`. -/
def Obligations.KeyAndSizeFixedWhileLive : Prop :=
  ∀ s t : State, step s = .next t → s.live = true → t.live = true →
    t.K = s.K ∧ t.DIR = s.DIR ∧ t.S = s.S

/-- No short segment can occur with segment size 1 (R124): a step keeps the fact that `SHORT` is 1 only where
the segment size is at least 2. -/
def Obligations.NoShortSegmentAtSizeOne : Prop :=
  ∀ s t : State, (s.SHORT = true → ∃ S, s.S = some S ∧ 2 ≤ S.val) → step s = .next t →
    (t.SHORT = true → ∃ S, t.S = some S ∧ 2 ≤ S.val)

/-- Nothing of one invocation reaches the next (R144): what a START leaves in the state items does not depend
on the state it found, as long as it was enabled there. -/
def Obligations.StartForgetsThePast : Prop :=
  ∀ (dir : Direction) (key iv : List Byte) (segSize : Byte) (s s' t t' : State),
    s.live = false → s'.live = false →
    exec (.start dir key iv segSize) s = .next t → exec (.start dir key iv segSize) s' = .next t' →
    ({ t with PLOG := [], CMD := [], RSP := [] } : State) = { t' with PLOG := [], CMD := [], RSP := [] }

/-- No command but SEG lets the host learn anything about `R` or `K` (R35): two states that differ only in
the values these hold give the same responses. -/
def Obligations.RegistersNotReadable : Prop :=
  ∀ (i : Instr) (s t : State) (R : Option (Bytes Config.blockSize)) (K : Option (Bytes Config.keyLen)),
    (∀ data, i ≠ .seg data) → exec i s = .next t →
    ∃ t', exec i { s with R := R, K := K } = .next t' ∧ t'.RSP = t.RSP ∧ t'.fsm = t.fsm ∧
      statusWord t' = statusWord t

/-- Nothing reads PLOG (R30): with any other history the same step is taken, to the same state but for the
history. -/
def Obligations.HistoryIsUnread : Prop :=
  ∀ (s t : State) (log : List PrimRequest), step s = .next t →
    ∃ t', step { s with PLOG := log } = .next t' ∧
      ({ t' with PLOG := [] } : State) = { t with PLOG := [] }

/-! ### Steps -/

/-- A step runs the decoded command: when the bytes that come next on CMD are those of a well-formed command,
the step is `exec` of that command, with exactly those bytes taken from the port (R59, R84; the form of the
port is the model's, log entry 3). -/
def Obligations.StepRunsDecodedCommand : Prop :=
  ∀ (s : State) (i : Instr) (rest : List HostEvent), i.wellFormed = true →
    s.CMD = sendBytes (encode i) ++ rest → step s = exec i { s with CMD := rest }

/-- A header that does not decode is answered Rejected with its `op` echoed; its four bytes are taken, no
payload is, and no state item changes (R78, R79, R72; the form of the port is the model's, log entry 3). -/
def Obligations.StepRejectsIllegalHeader : Prop :=
  ∀ (s : State) (b3 b2 b1 b0 : Byte) (why : IllegalHeader) (rest : List HostEvent),
    decodeHeader (wordOfBytes b3 b2 b1 b0) = .error why →
    s.CMD = sendBytes [b3, b2, b1, b0] ++ rest →
    step s = .next { s with
      CMD := rest, RSP := s.RSP ++ [⟨b3.extractLsb' 4 4, .rejected, []⟩] }

/-- A reset, from every state (R170, R171, R172): every state item and PLOG take their reset values, a command
not yet complete is discarded, and no response is given. What stands on the ports at a reset is the model's
reading (log entries 3 and 5). -/
def Obligations.StepTakesReset : Prop :=
  ∀ (s : State) (partialCommand : List Byte) (rest : List HostEvent),
    decode partialCommand = .incomplete → s.CMD = sendBytes partialCommand ++ .reset :: rest →
    step s = .next { State.reset with CMD := rest, RSP := s.RSP }

/-- The model's choice (log entry 4, DESIGN CHOICE): with no complete command and no reset on its ports the
CORE stays as it is. -/
def Obligations.StepWaitsForHost : Prop :=
  ∀ (s : State) (bs : List Byte), decode bs = .incomplete → s.CMD = sendBytes bs → step s = .next s

/-- Any interleaving of steps of different instances gives each instance the result of its own steps alone
(R64, R166). That all instances have the same parameters is the model's choice (log entry 22). -/
def Obligations.InstancesAreIndependent : Prop :=
  ∀ (schedule : List Nat) (ms : List (Host.Outcome State Fault Refusal)) (k : Nat),
    (runSchedule schedule ms)[k]? = ms[k]?.map (stepOutcome^[schedule.count k])

/-! ### The transform and its laws -/

/-- `chunk(x, s)` (R130): `ceil(n / s)` segments, segment `j` being `x[j*s : min((j+1)*s, n)]`, and together
the whole of `x`. -/
def Obligations.ChunkCutsInput : Prop :=
  ∀ (s : Nat) (hs : 1 ≤ s) (x : List Byte),
    (chunk s hs x).length = (x.length + s - 1) / s ∧
    (∀ (j : Nat) (hj : j < (chunk s hs x).length), (chunk s hs x)[j].val = (x.drop (j * s)).take s) ∧
    (chunk s hs x).flatMap Subtype.val = x

/-- The pseudo-instruction TRANSFORM (R131). Issued in Idle, Done or Failed with lengths in contract its result
is the transform function of R132, the CORE ends in Done holding that result, and the requests on PRIM are
those of the recurrence; with a length out of contract both it and the function fail with InvalidLength.
Issued while an invocation is live its START is rejected, nothing else changes, and it has no result. -/
def Obligations.TransformCommandsComputeTransform : Prop :=
  ∀ (dir : Direction) (key iv : List Byte) (segSize : Byte) (x : List Byte) (s : State),
    (s.live = true → execTransform dir key iv segSize x s =
      .next (.noResult, { s with RSP := s.RSP ++ [⟨1#4, .rejected, []⟩] })) ∧
    (s.live = false → ∃ t : State,
      (∀ h : StartInContract key iv segSize, ∃ y : List Byte,
        transform Config.E dir key iv segSize.toNat x = .ok y ∧
        execTransform dir key iv segSize x s = .next (.result y, t) ∧
        t.fsm = .done ∧ t.ACC = y ∧
        t.PLOG = s.PLOG ++
          (segmentsRequests Config.E dir (Bytes.ofList key h.2.1) h.1.2 (seed iv h.2.2)
            (chunk segSize.toNat h.1.1 x)).map (fun q => ⟨q.1, q.2.1, q.2.2⟩)) ∧
      (¬ StartInContract key iv segSize →
        transform Config.E dir key iv segSize.toNat x = .error .invalidLength ∧
        execTransform dir key iv segSize x s = .next (.failure .invalidLength, t) ∧ t.fsm = .failed))

/-- The machine computes the transform: with the bytes of START, the SEGs of the chunked input and FINISH next
on CMD, as many steps as there are commands take the CORE from any state without a live invocation to Done
with the transform in its accumulator, having taken those bytes and nothing else, and answered one response
per command (the form of the ports is the model's, log entries 3 and 6). -/
def Obligations.StepsComputeTransform : Prop :=
  ∀ (dir : Direction) (key iv : List Byte) (segSize : Byte) (x y : List Byte) (rest : List HostEvent)
    (s : State) (h : 1 ≤ segSize.toNat),
    s.live = false → transform Config.E dir key iv segSize.toNat x = .ok y →
    s.CMD = sendBytes (encodeAll (transformCommands dir key iv segSize h x)) ++ rest →
    ∃ t : State,
      Host.Core.run Sys2Proof.core (transformCommands dir key iv segSize h x).length s = .next t ∧
      t.fsm = .done ∧ t.ACC = y ∧ t.CMD = rest ∧
      ∃ rs : List Response, t.RSP = s.RSP ++ rs ∧
        rs.length = (transformCommands dir key iv segSize h x).length ∧ rs.flatMap Response.data = y

/-- Whatever segments a host presents, as long as the invocation stays live the accumulator is the transform
of what it presented (R114, R176, R180; decision D12). -/
def Obligations.AcceptedStreamIsTransform : Prop :=
  ∀ (dir : Direction) (key iv : List Byte) (segSize : Byte) (segs : List (List Byte)) (s t : State),
    s.live = false → execAll (.start dir key iv segSize :: segs.map .seg) s = .next t → t.live = true →
    transform Config.E dir key iv segSize.toNat segs.flatten = .ok t.ACC

/-- Length preservation (R135). -/
def Obligations.TransformPreservesLength : Prop :=
  ∀ {KLEN B : Nat} (E : Bytes KLEN → Bytes B → Bytes B) (dir : Direction) (key iv : List Byte) (s : Nat)
    (x y : List Byte), transform E dir key iv s x = .ok y → y.length = x.length

/-- Round trip (R137), both ways, for every primitive: decrypting an encryption gives the plaintext back, and
encrypting a decryption gives the ciphertext back. -/
def Obligations.DecryptInvertsEncrypt : Prop :=
  ∀ {KLEN B : Nat} (E : Bytes KLEN → Bytes B → Bytes B) (key iv : List Byte) (s : Nat) (x y : List Byte),
    (encrypt E key iv s x = .ok y → decrypt E key iv s y = .ok x) ∧
    (decrypt E key iv s x = .ok y → encrypt E key iv s y = .ok x)

/-- Closed form of the register (R134): after any segments it holds the last `B` bytes of the IV followed by
the ciphertext, in both directions. -/
def Obligations.RegisterIsLastCiphertext : Prop :=
  ∀ {KLEN B s : Nat} (E : Bytes KLEN → Bytes B → Bytes B) (dir : Direction) (K : Bytes KLEN) (iv : Bytes B)
    (hs : s ≤ B) (Xs : List (Segment s)),
    segmentsRegister E dir K hs iv Xs =
      lastBlock iv (match dir with
        | .encrypt => segmentsOutput E dir K hs iv Xs
        | .decrypt => Xs.flatMap Subtype.val)

/-- Decryption byte by byte from the ciphertext alone (R134, R142): every keystream is known without computing
any plaintext, so a parallel datapath computes the same function. -/
def Obligations.DecryptionFromCiphertextAlone : Prop :=
  ∀ {KLEN B : Nat} (E : Bytes KLEN → Bytes B → Bytes B) (K : Bytes KLEN) (iv : Bytes B) (s : Nat)
    (C D : List Byte), decrypt E K.toList iv.toList s C = .ok D →
    ∀ q : Nat, q < C.length →
      D.getD q 0 = C.getD q 0 ^^^ (E K (lastBlock iv (C.take (q / s * s)))).toList.getD (q % s) 0

/-- The requests on PRIM of a decryption are those of the encryption, request for request (R138). -/
def Obligations.DecryptionMakesSameRequests : Prop :=
  ∀ {KLEN B s : Nat} (E : Bytes KLEN → Bytes B → Bytes B) (K : Bytes KLEN) (iv : Bytes B) (hs1 : 1 ≤ s)
    (hs : s ≤ B) (P : List Byte),
    segmentsRequests E .decrypt K hs iv
        (chunk s hs1 (segmentsOutput E .encrypt K hs iv (chunk s hs1 P))) =
      segmentsRequests E .encrypt K hs iv (chunk s hs1 P)

/-- The number of requests on PRIM (R139): `ceil(n / s)`, so `n` for `s = 1` and none for an empty input. -/
def Obligations.PrimRequestCount : Prop :=
  ∀ {KLEN B s : Nat} (E : Bytes KLEN → Bytes B → Bytes B) (dir : Direction) (K : Bytes KLEN) (iv : Bytes B)
    (hs1 : 1 ≤ s) (hs : s ≤ B) (x : List Byte),
    (segmentsRequests E dir K hs iv (chunk s hs1 x)).length = (x.length + s - 1) / s

/-- Error propagation when decrypting (R140). With one ciphertext byte changed at `p`: byte `p` changes by the
same difference, the rest of its segment does not change, and neither does any byte before it or after the
window of `floor((r + B) / s)` segments that follow, which is within the source's bound `ceil(B / s)`. -/
def Obligations.ErrorPropagationIsBounded : Prop :=
  ∀ {KLEN B : Nat} (E : Bytes KLEN → Bytes B → Bytes B) (key iv : List Byte) (s p : Nat)
    (C C' D D' : List Byte),
    C'.length = C.length → p < C.length → (∀ q, q ≠ p → C'.getD q 0 = C.getD q 0) →
    decrypt E key iv s C = .ok D → decrypt E key iv s C' = .ok D' →
    D'.getD p 0 = D.getD p 0 ^^^ C.getD p 0 ^^^ C'.getD p 0 ∧
    (∀ q, q / s = p / s → q ≠ p → D'.getD q 0 = D.getD q 0) ∧
    (∀ q, (q < p ∨ p / s + (p % s + B) / s < q / s) → D'.getD q 0 = D.getD q 0) ∧
    (p % s + B) / s ≤ (B + s - 1) / s

/-- Outputs for two segment sizes agree on their first `min(s, s')` bytes (R141). -/
def Obligations.OutputsAgreeOnFirstSegment : Prop :=
  ∀ {KLEN B : Nat} (E : Bytes KLEN → Bytes B → Bytes B) (dir : Direction) (key iv : List Byte) (s s' : Nat)
    (x y y' : List Byte),
    transform E dir key iv s x = .ok y → transform E dir key iv s' x = .ok y' →
    y.take (min s s') = y'.take (min s s')

/-- With the identity as primitive the ciphertext does not depend on the segment size (R141): the property
that different segment sizes must give different ciphertexts is no law of the CORE. -/
def Obligations.IdentityPrimitiveIgnoresSegmentSize : Prop :=
  ∀ {KLEN B : Nat} (key iv : List Byte) (s s' : Nat) (x y y' : List Byte),
    encrypt (fun (_ : Bytes KLEN) (b : Bytes B) => b) key iv s x = .ok y →
    encrypt (fun (_ : Bytes KLEN) (b : Bytes B) => b) key iv s' x = .ok y' → y = y'

/-- Empty input (R122): START followed directly by FINISH is a complete invocation with result `[]` and no
request on PRIM. -/
def Obligations.EmptyInputCompletes : Prop :=
  ∀ (s : State) (dir : Direction) (key iv : List Byte) (segSize : Byte),
    s.live = false → StartInContract key iv segSize →
    ∃ t : State, execAll [.start dir key iv segSize, .finish] s = .next t ∧
      t.fsm = .done ∧ t.ACC = [] ∧ t.PLOG = s.PLOG ∧ t.R = none ∧ t.K = none
end

