-- ==== Sys2Proof/Laws/Decode.lean ====
section
/-! SUPPORT. Bytes and words, the mask tests of the decoder as tests of header fields, and what the decoder
does with a header. -/

namespace Sys2Proof

/-- Two words with the same four bytes are equal. -/
theorem word_ext_bytes {v w : Word} (h3 : v.extractLsb' 24 8 = w.extractLsb' 24 8)
    (h2 : v.extractLsb' 16 8 = w.extractLsb' 16 8) (h1 : v.extractLsb' 8 8 = w.extractLsb' 8 8)
    (h0 : v.extractLsb' 0 8 = w.extractLsb' 0 8) : v = w := by
  have bit {k : Nat} (h : v.extractLsb' k 8 = w.extractLsb' k 8) (j : Nat) (hj : j < 8) :
      v.getLsbD (k + j) = w.getLsbD (k + j) := by
    have := congrArg (fun x => x.getLsbD j) h
    simpa [BitVec.getLsbD_extractLsb', hj] using this
  apply BitVec.eq_of_getLsbD_eq
  intro i hi
  obtain h | h | h | h : (24 ≤ i) ∨ (16 ≤ i ∧ i < 24) ∨ (8 ≤ i ∧ i < 16) ∨ i < 8 := by omega
  · simpa [show 24 + (i - 24) = i by omega] using bit h3 (i - 24) (by omega)
  · simpa [show 16 + (i - 16) = i by omega] using bit h2 (i - 16) (by omega)
  · simpa [show 8 + (i - 8) = i by omega] using bit h1 (i - 8) (by omega)
  · simpa using bit h0 i h

/-- A field of a word and the same field of another agree when their bits do. -/
theorem extract_ext {n : Nat} {x y : BitVec n} (h : ∀ i < n, x.getLsbD i = y.getLsbD i) : x = y :=
  BitVec.eq_of_getLsbD_eq h

@[simp] theorem wordOfBytes_byte3 (b3 b2 b1 b0 : Byte) :
    (wordOfBytes b3 b2 b1 b0).extractLsb' 24 8 = b3 := by
  refine extract_ext fun i hi => ?_
  simp only [wordOfBytes, BitVec.getLsbD_extractLsb', BitVec.getLsbD_append]
  grind

@[simp] theorem wordOfBytes_byte2 (b3 b2 b1 b0 : Byte) :
    (wordOfBytes b3 b2 b1 b0).extractLsb' 16 8 = b2 := by
  refine extract_ext fun i hi => ?_
  simp only [wordOfBytes, BitVec.getLsbD_extractLsb', BitVec.getLsbD_append]
  grind

@[simp] theorem wordOfBytes_byte1 (b3 b2 b1 b0 : Byte) :
    (wordOfBytes b3 b2 b1 b0).extractLsb' 8 8 = b1 := by
  refine extract_ext fun i hi => ?_
  simp only [wordOfBytes, BitVec.getLsbD_extractLsb', BitVec.getLsbD_append]
  grind

@[simp] theorem wordOfBytes_byte0 (b3 b2 b1 b0 : Byte) :
    (wordOfBytes b3 b2 b1 b0).extractLsb' 0 8 = b0 := by
  refine extract_ext fun i hi => ?_
  simp only [wordOfBytes, BitVec.getLsbD_extractLsb', BitVec.getLsbD_append]
  grind

/-- A word is the word of its own four bytes (R51). -/
@[simp] theorem wordOfBytes_of_extracts (w : Word) :
    wordOfBytes (w.extractLsb' 24 8) (w.extractLsb' 16 8) (w.extractLsb' 8 8) (w.extractLsb' 0 8) = w :=
  word_ext_bytes (by simp) (by simp) (by simp) (by simp)

/-- The bytes of the word of four bytes are those four bytes (R51). -/
@[simp] theorem wordBytes_wordOfBytes (b3 b2 b1 b0 : Byte) :
    wordBytes (wordOfBytes b3 b2 b1 b0) = [b3, b2, b1, b0] := by simp [wordBytes]

/-- The operation field of a word on the port is the upper half of its first byte. -/
@[simp] theorem opField_wordOfBytes (b3 b2 b1 b0 : Byte) :
    opField (wordOfBytes b3 b2 b1 b0) = b3.extractLsb' 4 4 := by
  refine extract_ext fun i hi => ?_
  simp only [opField, wordOfBytes, BitVec.getLsbD_extractLsb', BitVec.getLsbD_append]
  grind

/-- START's mask test is a test of the operation and of the reserved bits 26:24 (R67, R79). -/
theorem startMask_iff (h : Word) : h &&& 0xF7000000#32 = 0x10000000#32 ↔
    h.extractLsb' 28 4 = 1#4 ∧ h.extractLsb' 24 3 = 0#3 := by
  constructor
  · intro e
    constructor <;> refine extract_ext fun i hi => ?_
    · have := congrArg (fun x => x.getLsbD (28 + i)) e
      interval_cases i <;> simpa [BitVec.getLsbD_extractLsb'] using this
    · have := congrArg (fun x => x.getLsbD (24 + i)) e
      interval_cases i <;> simpa [BitVec.getLsbD_extractLsb'] using this
  · rintro ⟨h1, h2⟩
    refine extract_ext fun i hi => ?_
    have a := congrArg (fun x => x.getLsbD (i - 28)) h1
    have b := congrArg (fun x => x.getLsbD (i - 24)) h2
    simp only [BitVec.getLsbD_extractLsb'] at a b
    interval_cases i <;> simp_all

/-- SEG's mask test is a test of the operation and of the reserved bits 27:8 (R68, R79). -/
theorem segMask_iff (h : Word) : h &&& 0xFFFFFF00#32 = 0x20000000#32 ↔
    h.extractLsb' 28 4 = 2#4 ∧ h.extractLsb' 8 20 = 0#20 := by
  constructor
  · intro e
    constructor <;> refine extract_ext fun i hi => ?_
    · have := congrArg (fun x => x.getLsbD (28 + i)) e
      interval_cases i <;> simpa [BitVec.getLsbD_extractLsb'] using this
    · have := congrArg (fun x => x.getLsbD (8 + i)) e
      interval_cases i <;> simpa [BitVec.getLsbD_extractLsb'] using this
  · rintro ⟨h1, h2⟩
    refine extract_ext fun i hi => ?_
    have a := congrArg (fun x => x.getLsbD (i - 28)) h1
    have b := congrArg (fun x => x.getLsbD (i - 8)) h2
    simp only [BitVec.getLsbD_extractLsb'] at a b
    interval_cases i <;> simp_all

/-! ### Headers -/

@[simp] theorem directionOfBit_bitOfDirection (dir : Direction) :
    directionOfBit (bitOfDirection dir) = dir := by cases dir <;> rfl

@[simp] theorem bitOfDirection_directionOfBit (b : BitVec 1) :
    bitOfDirection (directionOfBit b) = b := by
  obtain rfl | rfl : b = 0#1 ∨ b = 1#1 := by revert b; decide
  all_goals rfl

/-- The operation field of an encoded header is the operation of its command (R65). -/
theorem opField_encodeHeader (hd : Header) : opField (encodeHeader hd) =
    match hd with
    | .start _ _ _ _ => 1#4
    | .seg _ => 2#4
    | .finish => 3#4
    | .abort => 4#4
    | .stat => 5#4 := by
  cases hd
  case start | seg =>
    refine extract_ext fun i hi => ?_
    simp only [opField, encodeHeader, BitVec.getLsbD_extractLsb', BitVec.getLsbD_append]
    interval_cases i <;> simp
  all_goals rfl

/-- Every field of an encoded START header can be read back from its bits (R67). -/
theorem startHeader_fields (dir : Direction) (keyLen ivLen segSize : Byte) :
    let h := encodeHeader (.start dir keyLen ivLen segSize)
    h.extractLsb' 27 1 = bitOfDirection dir ∧ h.extractLsb' 24 3 = 0#3 ∧
    h.extractLsb' 16 8 = keyLen ∧ h.extractLsb' 8 8 = ivLen ∧ h.extractLsb' 0 8 = segSize := by
  refine ⟨?_, ?_, ?_, ?_, ?_⟩ <;> refine extract_ext fun i hi => ?_ <;>
    simp only [encodeHeader, BitVec.getLsbD_extractLsb', BitVec.getLsbD_append] <;> grind

/-- Every field of an encoded SEG header can be read back from its bits (R68). -/
theorem segHeader_fields (len : Byte) :
    let h := encodeHeader (.seg len)
    h.extractLsb' 8 20 = 0#20 ∧ h.extractLsb' 0 8 = len := by
  refine ⟨?_, ?_⟩ <;> refine extract_ext fun i hi => ?_ <;>
    simp only [encodeHeader, BitVec.getLsbD_extractLsb', BitVec.getLsbD_append] <;> grind

/-- A START header is its fields put together (R67). -/
theorem startHeader_of_fields (h : Word) (h1 : h.extractLsb' 28 4 = 1#4) (h2 : h.extractLsb' 24 3 = 0#3) :
    encodeHeader (.start (directionOfBit (h.extractLsb' 27 1)) (h.extractLsb' 16 8)
      (h.extractLsb' 8 8) (h.extractLsb' 0 8)) = h := by
  refine extract_ext fun i hi => ?_
  have a := congrArg (fun x => x.getLsbD (i - 28)) h1
  have b := congrArg (fun x => x.getLsbD (i - 24)) h2
  simp only [BitVec.getLsbD_extractLsb'] at a b
  simp only [encodeHeader, bitOfDirection_directionOfBit, BitVec.getLsbD_extractLsb', BitVec.getLsbD_append]
  interval_cases i <;> simp_all

/-- A SEG header is its fields put together (R68). -/
theorem segHeader_of_fields (h : Word) (h1 : h.extractLsb' 28 4 = 2#4) (h2 : h.extractLsb' 8 20 = 0#20) :
    encodeHeader (.seg (h.extractLsb' 0 8)) = h := by
  refine extract_ext fun i hi => ?_
  have a := congrArg (fun x => x.getLsbD (i - 28)) h1
  have b := congrArg (fun x => x.getLsbD (i - 8)) h2
  simp only [BitVec.getLsbD_extractLsb'] at a b
  simp only [encodeHeader, BitVec.getLsbD_extractLsb', BitVec.getLsbD_append]
  interval_cases i <;> simp_all

/-- Decoding the header of a command gives the header back. -/
@[simp] theorem decodeHeader_encodeHeader (hd : Header) : decodeHeader (encodeHeader hd) = .ok hd := by
  cases hd with
  | start dir k v s =>
    have f := startHeader_fields dir k v s
    have o : (encodeHeader (.start dir k v s)).extractLsb' 28 4 = 1#4 := opField_encodeHeader _
    simp only at f
    simp [decodeHeader, startMask_iff, o, f]
  | seg len =>
    have f := segHeader_fields len
    have o : (encodeHeader (.seg len)).extractLsb' 28 4 = 2#4 := opField_encodeHeader _
    simp only at f
    simp [decodeHeader, startMask_iff, segMask_iff, o, f]
  | finish => decide
  | abort => decide
  | stat => decide

/-- A header that decodes is the header of what it decodes to. -/
theorem encodeHeader_of_decodeHeader {h : Word} {hd : Header} (e : decodeHeader h = .ok hd) :
    encodeHeader hd = h := by
  unfold decodeHeader at e
  split at e
  next m => cases e; exact startHeader_of_fields h ((startMask_iff h).mp m).1 ((startMask_iff h).mp m).2
  next =>
    split at e
    next m => cases e; exact segHeader_of_fields h ((segMask_iff h).mp m).1 ((segMask_iff h).mp m).2
    next =>
      split at e
      next m => cases e; rw [m]; decide
      next =>
        split at e
        next m => cases e; rw [m]; decide
        next =>
          split at e
          next m => cases e; rw [m]; decide
          next => cases e

/-! ### Byte streams -/

/-- What the decoder does with a stream that begins with a header. -/
theorem decode_wordBytes_append (h : Word) (tail : List Byte) : decode (wordBytes h ++ tail) =
    match decodeHeader h with
    | .error why => .illegal why h tail
    | .ok hd =>
      if tail.length < hd.payloadLength then .incomplete
      else .instr (attachPayload hd (tail.take hd.payloadLength)) (tail.drop hd.payloadLength) := by
  cases hd : decodeHeader h <;>
    simp only [wordBytes, List.cons_append, List.nil_append, decode, wordOfBytes_of_extracts, hd]

/-- A stream the decoder can read begins with the four bytes of a word. -/
theorem decode_needs_header {bs : List Byte} (h : decode bs ≠ .incomplete) :
    ∃ w tail, bs = wordBytes w ++ tail := by
  match bs with
  | b3 :: b2 :: b1 :: b0 :: tail => exact ⟨wordOfBytes b3 b2 b1 b0, tail, by simp⟩
  | [] | [_] | [_, _] | [_, _, _] => simp [decode] at h

end Sys2Proof
end

