-- ==== Sys2Proof/Laws/Operands.lean ====
section
/-! SUPPORT. Each internal operation as the list of its bytes: what SEED, ADVANCE, DERIVE, COMBINE and FBSEL
give, so that later proofs work on lists and do not unfold them. -/

namespace Sys2Proof.Machine

variable {KLEN B n : Nat} (E : Bytes KLEN → Bytes B → Bytes B) (K : Bytes KLEN) (R : Bytes B)

/-- Two sequences of one length with the same bytes are equal. -/
theorem bytes_ext_toList {x y : Bytes n} (h : x.toList = y.toList) : x = y := Vector.toList_inj.mp h

@[simp] theorem ofList_toList (x : Bytes n) (h : x.toList.length = n) : Bytes.ofList x.toList h = x :=
  bytes_ext_toList rfl

@[simp] theorem seed_toList (iv : List Byte) (h : iv.length = B) : (seed iv h).toList = iv := rfl

@[simp] theorem advance_toList (x : Bytes n) (h : InBlock n B) :
    (advance R x h).toList = R.toList.drop n ++ x.toList := rfl

@[simp] theorem derive_toList (h : InBlock n B) : (derive E K R n h).toList = (E K R).toList.take n := rfl

@[simp] theorem combine_toList (x ks : Bytes n) :
    (combine x ks).toList = List.zipWith (· ^^^ ·) x.toList ks.toList := rfl

@[simp] theorem fbsel_encrypt (x y : Bytes n) : fbsel .encrypt x y = y := rfl

@[simp] theorem fbsel_decrypt (x y : Bytes n) : fbsel .decrypt x y = x := rfl

@[simp] theorem segmentOutput_toList (x : Bytes n) (h : InBlock n B) :
    (segmentOutput E K R x h).toList = List.zipWith (· ^^^ ·) x.toList ((E K R).toList.take n) := rfl

@[simp] theorem segmentRegister_toList (dir : Direction) (x : Bytes n) (h : InBlock n B) :
    (segmentRegister E dir K R x h).toList =
      R.toList.drop n ++ (fbsel dir x (segmentOutput E K R x h)).toList := rfl

/-- The output of a segment is as long as the segment (R125). -/
theorem segmentOutput_length (x : Bytes n) (h : InBlock n B) :
    (segmentOutput E K R x h).toList.length = n := Vector.length_toList

/-- Exclusive or with the same bytes twice gives the data back (R108). -/
theorem zipWith_xor_cancel : ∀ x ks : List Byte, x.length ≤ ks.length →
    List.zipWith (· ^^^ ·) (List.zipWith (· ^^^ ·) x ks) ks = x
  | [], _, _ => rfl
  | a :: x, k :: ks, h => by
    simp [zipWith_xor_cancel x ks (by simpa using h)]

end Sys2Proof.Machine
end

