-- ==== Sys2Proof/Laws/State.lean ====
section
/-! SUPPORT. What each named update of the state leaves in each field, one lemma per field and update, so that
no proof unfolds a record update. -/

namespace Sys2Proof.Machine

/-! ### respond -/

@[simp] theorem respond_fsm (op : BitVec 4) (st : Status) (d : List Byte) (s : State) : (respond op st d s).fsm = s.fsm := rfl
@[simp] theorem respond_R (op : BitVec 4) (st : Status) (d : List Byte) (s : State) : (respond op st d s).R = s.R := rfl
@[simp] theorem respond_K (op : BitVec 4) (st : Status) (d : List Byte) (s : State) : (respond op st d s).K = s.K := rfl
@[simp] theorem respond_DIR (op : BitVec 4) (st : Status) (d : List Byte) (s : State) : (respond op st d s).DIR = s.DIR := rfl
@[simp] theorem respond_S (op : BitVec 4) (st : Status) (d : List Byte) (s : State) : (respond op st d s).S = s.S := rfl
@[simp] theorem respond_ACC (op : BitVec 4) (st : Status) (d : List Byte) (s : State) : (respond op st d s).ACC = s.ACC := rfl
@[simp] theorem respond_SHORT (op : BitVec 4) (st : Status) (d : List Byte) (s : State) : (respond op st d s).SHORT = s.SHORT := rfl
@[simp] theorem respond_ERR (op : BitVec 4) (st : Status) (d : List Byte) (s : State) : (respond op st d s).ERR = s.ERR := rfl
@[simp] theorem respond_PLOG (op : BitVec 4) (st : Status) (d : List Byte) (s : State) : (respond op st d s).PLOG = s.PLOG := rfl
@[simp] theorem respond_CMD (op : BitVec 4) (st : Status) (d : List Byte) (s : State) : (respond op st d s).CMD = s.CMD := rfl
@[simp] theorem respond_RSP (op : BitVec 4) (st : Status) (d : List Byte) (s : State) : (respond op st d s).RSP = s.RSP ++ [⟨op, st, d⟩] := rfl

/-! ### reject -/

@[simp] theorem reject_fsm (op : BitVec 4) (s : State) : (reject op s).fsm = s.fsm := rfl
@[simp] theorem reject_R (op : BitVec 4) (s : State) : (reject op s).R = s.R := rfl
@[simp] theorem reject_K (op : BitVec 4) (s : State) : (reject op s).K = s.K := rfl
@[simp] theorem reject_DIR (op : BitVec 4) (s : State) : (reject op s).DIR = s.DIR := rfl
@[simp] theorem reject_S (op : BitVec 4) (s : State) : (reject op s).S = s.S := rfl
@[simp] theorem reject_ACC (op : BitVec 4) (s : State) : (reject op s).ACC = s.ACC := rfl
@[simp] theorem reject_SHORT (op : BitVec 4) (s : State) : (reject op s).SHORT = s.SHORT := rfl
@[simp] theorem reject_ERR (op : BitVec 4) (s : State) : (reject op s).ERR = s.ERR := rfl
@[simp] theorem reject_PLOG (op : BitVec 4) (s : State) : (reject op s).PLOG = s.PLOG := rfl
@[simp] theorem reject_CMD (op : BitVec 4) (s : State) : (reject op s).CMD = s.CMD := rfl
@[simp] theorem reject_RSP (op : BitVec 4) (s : State) : (reject op s).RSP = s.RSP ++ [⟨op, .rejected, []⟩] := rfl

/-! ### rejectHeader -/

@[simp] theorem rejectHeader_fsm (h : Word) (s : State) : (rejectHeader h s).fsm = s.fsm := rfl
@[simp] theorem rejectHeader_R (h : Word) (s : State) : (rejectHeader h s).R = s.R := rfl
@[simp] theorem rejectHeader_K (h : Word) (s : State) : (rejectHeader h s).K = s.K := rfl
@[simp] theorem rejectHeader_DIR (h : Word) (s : State) : (rejectHeader h s).DIR = s.DIR := rfl
@[simp] theorem rejectHeader_S (h : Word) (s : State) : (rejectHeader h s).S = s.S := rfl
@[simp] theorem rejectHeader_ACC (h : Word) (s : State) : (rejectHeader h s).ACC = s.ACC := rfl
@[simp] theorem rejectHeader_SHORT (h : Word) (s : State) : (rejectHeader h s).SHORT = s.SHORT := rfl
@[simp] theorem rejectHeader_ERR (h : Word) (s : State) : (rejectHeader h s).ERR = s.ERR := rfl
@[simp] theorem rejectHeader_PLOG (h : Word) (s : State) : (rejectHeader h s).PLOG = s.PLOG := rfl
@[simp] theorem rejectHeader_CMD (h : Word) (s : State) : (rejectHeader h s).CMD = s.CMD := rfl
@[simp] theorem rejectHeader_RSP (h : Word) (s : State) : (rejectHeader h s).RSP = s.RSP ++ [⟨opField h, .rejected, []⟩] := rfl

/-! ### clearItems -/

@[simp] theorem clearItems_fsm (s : State) : (clearItems s).fsm = .idle := rfl
@[simp] theorem clearItems_R (s : State) : (clearItems s).R = none := rfl
@[simp] theorem clearItems_K (s : State) : (clearItems s).K = none := rfl
@[simp] theorem clearItems_DIR (s : State) : (clearItems s).DIR = none := rfl
@[simp] theorem clearItems_S (s : State) : (clearItems s).S = none := rfl
@[simp] theorem clearItems_ACC (s : State) : (clearItems s).ACC = [] := rfl
@[simp] theorem clearItems_SHORT (s : State) : (clearItems s).SHORT = false := rfl
@[simp] theorem clearItems_ERR (s : State) : (clearItems s).ERR = .none := rfl
@[simp] theorem clearItems_PLOG (s : State) : (clearItems s).PLOG = s.PLOG := rfl
@[simp] theorem clearItems_CMD (s : State) : (clearItems s).CMD = s.CMD := rfl
@[simp] theorem clearItems_RSP (s : State) : (clearItems s).RSP = s.RSP := rfl

/-! ### fail -/

@[simp] theorem fail_fsm (op : BitVec 4) (s : State) : (fail op s).fsm = .failed := rfl
@[simp] theorem fail_R (op : BitVec 4) (s : State) : (fail op s).R = none := rfl
@[simp] theorem fail_K (op : BitVec 4) (s : State) : (fail op s).K = none := rfl
@[simp] theorem fail_DIR (op : BitVec 4) (s : State) : (fail op s).DIR = none := rfl
@[simp] theorem fail_S (op : BitVec 4) (s : State) : (fail op s).S = none := rfl
@[simp] theorem fail_ACC (op : BitVec 4) (s : State) : (fail op s).ACC = [] := rfl
@[simp] theorem fail_SHORT (op : BitVec 4) (s : State) : (fail op s).SHORT = false := rfl
@[simp] theorem fail_ERR (op : BitVec 4) (s : State) : (fail op s).ERR = .invalidLength := rfl
@[simp] theorem fail_PLOG (op : BitVec 4) (s : State) : (fail op s).PLOG = s.PLOG := rfl
@[simp] theorem fail_CMD (op : BitVec 4) (s : State) : (fail op s).CMD = s.CMD := rfl
@[simp] theorem fail_RSP (op : BitVec 4) (s : State) : (fail op s).RSP = s.RSP ++ [⟨op, .invalidLength, []⟩] := rfl

/-! ### logRequest -/

@[simp] theorem logRequest_fsm (K : Bytes Config.keyLen) (R : Bytes Config.blockSize) (s : State) : (logRequest K R s).fsm = s.fsm := rfl
@[simp] theorem logRequest_R (K : Bytes Config.keyLen) (R : Bytes Config.blockSize) (s : State) : (logRequest K R s).R = s.R := rfl
@[simp] theorem logRequest_K (K : Bytes Config.keyLen) (R : Bytes Config.blockSize) (s : State) : (logRequest K R s).K = s.K := rfl
@[simp] theorem logRequest_DIR (K : Bytes Config.keyLen) (R : Bytes Config.blockSize) (s : State) : (logRequest K R s).DIR = s.DIR := rfl
@[simp] theorem logRequest_S (K : Bytes Config.keyLen) (R : Bytes Config.blockSize) (s : State) : (logRequest K R s).S = s.S := rfl
@[simp] theorem logRequest_ACC (K : Bytes Config.keyLen) (R : Bytes Config.blockSize) (s : State) : (logRequest K R s).ACC = s.ACC := rfl
@[simp] theorem logRequest_SHORT (K : Bytes Config.keyLen) (R : Bytes Config.blockSize) (s : State) : (logRequest K R s).SHORT = s.SHORT := rfl
@[simp] theorem logRequest_ERR (K : Bytes Config.keyLen) (R : Bytes Config.blockSize) (s : State) : (logRequest K R s).ERR = s.ERR := rfl
@[simp] theorem logRequest_PLOG (K : Bytes Config.keyLen) (R : Bytes Config.blockSize) (s : State) : (logRequest K R s).PLOG = s.PLOG ++ [⟨K, R, Config.E K R⟩] := rfl
@[simp] theorem logRequest_CMD (K : Bytes Config.keyLen) (R : Bytes Config.blockSize) (s : State) : (logRequest K R s).CMD = s.CMD := rfl
@[simp] theorem logRequest_RSP (K : Bytes Config.keyLen) (R : Bytes Config.blockSize) (s : State) : (logRequest K R s).RSP = s.RSP := rfl

/-! ### resetEvent -/

@[simp] theorem resetEvent_fsm (s : State) : (resetEvent s).fsm = .idle := rfl
@[simp] theorem resetEvent_R (s : State) : (resetEvent s).R = none := rfl
@[simp] theorem resetEvent_K (s : State) : (resetEvent s).K = none := rfl
@[simp] theorem resetEvent_DIR (s : State) : (resetEvent s).DIR = none := rfl
@[simp] theorem resetEvent_S (s : State) : (resetEvent s).S = none := rfl
@[simp] theorem resetEvent_ACC (s : State) : (resetEvent s).ACC = [] := rfl
@[simp] theorem resetEvent_SHORT (s : State) : (resetEvent s).SHORT = false := rfl
@[simp] theorem resetEvent_ERR (s : State) : (resetEvent s).ERR = .none := rfl
@[simp] theorem resetEvent_PLOG (s : State) : (resetEvent s).PLOG = [] := rfl
@[simp] theorem resetEvent_CMD (s : State) : (resetEvent s).CMD = s.CMD := rfl
@[simp] theorem resetEvent_RSP (s : State) : (resetEvent s).RSP = s.RSP := rfl

/-! ### setPorts -/

@[simp] theorem setPorts_fsm (es : List HostEvent) (s : State) : (setPorts es s).fsm = s.fsm := rfl
@[simp] theorem setPorts_R (es : List HostEvent) (s : State) : (setPorts es s).R = s.R := rfl
@[simp] theorem setPorts_K (es : List HostEvent) (s : State) : (setPorts es s).K = s.K := rfl
@[simp] theorem setPorts_DIR (es : List HostEvent) (s : State) : (setPorts es s).DIR = s.DIR := rfl
@[simp] theorem setPorts_S (es : List HostEvent) (s : State) : (setPorts es s).S = s.S := rfl
@[simp] theorem setPorts_ACC (es : List HostEvent) (s : State) : (setPorts es s).ACC = s.ACC := rfl
@[simp] theorem setPorts_SHORT (es : List HostEvent) (s : State) : (setPorts es s).SHORT = s.SHORT := rfl
@[simp] theorem setPorts_ERR (es : List HostEvent) (s : State) : (setPorts es s).ERR = s.ERR := rfl
@[simp] theorem setPorts_PLOG (es : List HostEvent) (s : State) : (setPorts es s).PLOG = s.PLOG := rfl
@[simp] theorem setPorts_CMD (es : List HostEvent) (s : State) : (setPorts es s).CMD = es := rfl
@[simp] theorem setPorts_RSP (es : List HostEvent) (s : State) : (setPorts es s).RSP = s.RSP := rfl

/-! ### beginInvocation -/

@[simp] theorem beginInvocation_fsm (dir : Direction) (key iv : List Byte) (n : Byte) (s : State)
    (h : StartInContract key iv n) :
    (beginInvocation dir key iv n s h).fsm = .ready := rfl
@[simp] theorem beginInvocation_R (dir : Direction) (key iv : List Byte) (n : Byte) (s : State)
    (h : StartInContract key iv n) :
    (beginInvocation dir key iv n s h).R = some (seed iv h.2.2) := rfl
@[simp] theorem beginInvocation_K (dir : Direction) (key iv : List Byte) (n : Byte) (s : State)
    (h : StartInContract key iv n) :
    (beginInvocation dir key iv n s h).K = some (Bytes.ofList key h.2.1) := rfl
@[simp] theorem beginInvocation_DIR (dir : Direction) (key iv : List Byte) (n : Byte) (s : State)
    (h : StartInContract key iv n) :
    (beginInvocation dir key iv n s h).DIR = some dir := rfl
@[simp] theorem beginInvocation_S (dir : Direction) (key iv : List Byte) (n : Byte) (s : State)
    (h : StartInContract key iv n) :
    (beginInvocation dir key iv n s h).S = some ⟨n.toNat, h.1.1, h.1.2⟩ := rfl
@[simp] theorem beginInvocation_ACC (dir : Direction) (key iv : List Byte) (n : Byte) (s : State)
    (h : StartInContract key iv n) :
    (beginInvocation dir key iv n s h).ACC = [] := rfl
@[simp] theorem beginInvocation_SHORT (dir : Direction) (key iv : List Byte) (n : Byte) (s : State)
    (h : StartInContract key iv n) :
    (beginInvocation dir key iv n s h).SHORT = false := rfl
@[simp] theorem beginInvocation_ERR (dir : Direction) (key iv : List Byte) (n : Byte) (s : State)
    (h : StartInContract key iv n) :
    (beginInvocation dir key iv n s h).ERR = .none := rfl
@[simp] theorem beginInvocation_PLOG (dir : Direction) (key iv : List Byte) (n : Byte) (s : State)
    (h : StartInContract key iv n) :
    (beginInvocation dir key iv n s h).PLOG = s.PLOG := rfl
@[simp] theorem beginInvocation_CMD (dir : Direction) (key iv : List Byte) (n : Byte) (s : State)
    (h : StartInContract key iv n) :
    (beginInvocation dir key iv n s h).CMD = s.CMD := rfl
@[simp] theorem beginInvocation_RSP (dir : Direction) (key iv : List Byte) (n : Byte) (s : State)
    (h : StartInContract key iv n) :
    (beginInvocation dir key iv n s h).RSP = s.RSP := rfl

/-! ### processSegment -/

@[simp] theorem processSegment_fsm (data : List Byte) (S : SegSize) (R : Bytes Config.blockSize)
    (K : Bytes Config.keyLen) (dir : Direction) (s : State) (h : InBlock data.length Config.blockSize) :
    (processSegment data S R K dir s h).fsm = .processing := rfl
@[simp] theorem processSegment_R (data : List Byte) (S : SegSize) (R : Bytes Config.blockSize)
    (K : Bytes Config.keyLen) (dir : Direction) (s : State) (h : InBlock data.length Config.blockSize) :
    (processSegment data S R K dir s h).R = some (segmentRegister Config.E dir K R (Bytes.ofList data rfl) h) := rfl
@[simp] theorem processSegment_K (data : List Byte) (S : SegSize) (R : Bytes Config.blockSize)
    (K : Bytes Config.keyLen) (dir : Direction) (s : State) (h : InBlock data.length Config.blockSize) :
    (processSegment data S R K dir s h).K = s.K := rfl
@[simp] theorem processSegment_DIR (data : List Byte) (S : SegSize) (R : Bytes Config.blockSize)
    (K : Bytes Config.keyLen) (dir : Direction) (s : State) (h : InBlock data.length Config.blockSize) :
    (processSegment data S R K dir s h).DIR = s.DIR := rfl
@[simp] theorem processSegment_S (data : List Byte) (S : SegSize) (R : Bytes Config.blockSize)
    (K : Bytes Config.keyLen) (dir : Direction) (s : State) (h : InBlock data.length Config.blockSize) :
    (processSegment data S R K dir s h).S = s.S := rfl
@[simp] theorem processSegment_ACC (data : List Byte) (S : SegSize) (R : Bytes Config.blockSize)
    (K : Bytes Config.keyLen) (dir : Direction) (s : State) (h : InBlock data.length Config.blockSize) :
    (processSegment data S R K dir s h).ACC = s.ACC ++ (segmentOutput Config.E K R (Bytes.ofList data rfl) h).toList := rfl
@[simp] theorem processSegment_SHORT (data : List Byte) (S : SegSize) (R : Bytes Config.blockSize)
    (K : Bytes Config.keyLen) (dir : Direction) (s : State) (h : InBlock data.length Config.blockSize) :
    (processSegment data S R K dir s h).SHORT = shortAfter s.SHORT data.length S := rfl
@[simp] theorem processSegment_ERR (data : List Byte) (S : SegSize) (R : Bytes Config.blockSize)
    (K : Bytes Config.keyLen) (dir : Direction) (s : State) (h : InBlock data.length Config.blockSize) :
    (processSegment data S R K dir s h).ERR = s.ERR := rfl
@[simp] theorem processSegment_PLOG (data : List Byte) (S : SegSize) (R : Bytes Config.blockSize)
    (K : Bytes Config.keyLen) (dir : Direction) (s : State) (h : InBlock data.length Config.blockSize) :
    (processSegment data S R K dir s h).PLOG = s.PLOG ++ [⟨K, R, Config.E K R⟩] := rfl
@[simp] theorem processSegment_CMD (data : List Byte) (S : SegSize) (R : Bytes Config.blockSize)
    (K : Bytes Config.keyLen) (dir : Direction) (s : State) (h : InBlock data.length Config.blockSize) :
    (processSegment data S R K dir s h).CMD = s.CMD := rfl
@[simp] theorem processSegment_RSP (data : List Byte) (S : SegSize) (R : Bytes Config.blockSize)
    (K : Bytes Config.keyLen) (dir : Direction) (s : State) (h : InBlock data.length Config.blockSize) :
    (processSegment data S R K dir s h).RSP = s.RSP ++ [⟨0b0010#4, .ok, (segmentOutput Config.E K R (Bytes.ofList data rfl) h).toList⟩] := rfl

end Sys2Proof.Machine
end

