-- ==== Sys2Proof/Laws/Ops.lean ====
section
/-! SUPPORT. What each shared operation and each meaning can do, said once: the gate of the enablement table,
the reads of state items, the host's ports, the five commands and the step. -/

namespace Sys2Proof.Machine

/-! ### Gates and reads -/

/-- An enabled command is executed (R112). -/
theorem whenEnabled_of_enabled {i : Instr} {s : State} (k : Host.Outcome State Fault Refusal)
    (h : enabled i s.fsm = true) : whenEnabled i s k = k := if_pos h

/-- A command that is not enabled is rejected (R119). -/
theorem whenEnabled_of_not_enabled {i : Instr} {s : State} (k : Host.Outcome State Fault Refusal)
    (h : enabled i s.fsm = false) : whenEnabled i s k = .next (reject (opOf i) s) :=
  if_neg (by simp [h])

@[simp] theorem readItem_of_some {α : Type} (item : Item) (a : α)
    (k : α → Host.Outcome State Fault Refusal) : readItem item (some a) k = k a := rfl

@[simp] theorem readItem_of_none {α : Type} (item : Item) (k : α → Host.Outcome State Fault Refusal) :
    readItem item none k = .fault (.readNone item) := rfl

/-- A read that goes on to a next state found a value. -/
theorem readItem_next {α : Type} {item : Item} {v : Option α} {k : α → Host.Outcome State Fault Refusal}
    {t : State} (h : readItem item v k = .next t) : ∃ a, v = some a ∧ k a = .next t := by
  cases v with
  | some a => exact ⟨a, rfl, h⟩
  | none => cases h

/-! ### The commands -/

/-- START where it is enabled, with operands in contract (R113). -/
theorem execStart_in_contract {dir : Direction} {key iv : List Byte} {n : Byte} {s : State}
    (e : enabled (.start dir key iv n) s.fsm = true) (c : StartInContract key iv n) :
    execStart dir key iv n s = .next (respond 1#4 .ok [] (beginInvocation dir key iv n s c)) :=
  (whenEnabled_of_enabled _ e).trans (by rw [dif_pos c])

/-- START where it is enabled, with a length out of contract (R151, R157). -/
theorem execStart_out_of_contract {dir : Direction} {key iv : List Byte} {n : Byte} {s : State}
    (e : enabled (.start dir key iv n) s.fsm = true) (c : ¬ StartInContract key iv n) :
    execStart dir key iv n s = .next (fail 1#4 s) :=
  (whenEnabled_of_enabled _ e).trans (by rw [dif_neg c])

/-- SEG where it is enabled and the items hold values, with its operand in contract (R114). -/
theorem execSeg_in_contract {data : List Byte} {s : State} {S : SegSize} {R : Bytes Config.blockSize}
    {K : Bytes Config.keyLen} {dir : Direction} (e : enabled (.seg data) s.fsm = true)
    (hS : s.S = some S) (hR : s.R = some R) (hK : s.K = some K) (hD : s.DIR = some dir)
    (c : SegInContract data S s.SHORT) :
    execSeg data s =
      .next (processSegment data S R K dir s ⟨c.1.1, c.1.2.trans S.le_blockSize⟩) :=
  (whenEnabled_of_enabled _ e).trans (by rw [hS, hR, hK, hD]; exact dif_pos c)

/-- SEG where it is enabled, with its operand out of contract (R152, R157). -/
theorem execSeg_out_of_contract {data : List Byte} {s : State} {S : SegSize}
    (e : enabled (.seg data) s.fsm = true) (hS : s.S = some S) (c : ¬ SegInContract data S s.SHORT) :
    execSeg data s = .next (fail 2#4 s) :=
  (whenEnabled_of_enabled _ e).trans (by rw [hS]; exact dif_neg c)

/-- What START can do. -/
theorem execStart_cases {dir : Direction} {key iv : List Byte} {n : Byte} {s t : State}
    (h : execStart dir key iv n s = .next t) :
    (enabled (.start dir key iv n) s.fsm = false ∧ t = reject 1#4 s) ∨
    (enabled (.start dir key iv n) s.fsm = true ∧ ¬ StartInContract key iv n ∧ t = fail 1#4 s) ∨
    ∃ c : StartInContract key iv n, enabled (.start dir key iv n) s.fsm = true ∧
      t = respond 1#4 .ok [] (beginInvocation dir key iv n s c) := by
  unfold execStart at h
  cases e : enabled (.start dir key iv n) s.fsm with
  | false => rw [whenEnabled_of_not_enabled _ e] at h; cases h; exact .inl ⟨rfl, rfl⟩
  | true =>
    rw [whenEnabled_of_enabled _ e] at h
    split at h
    next c => cases h; exact .inr (.inr ⟨c, rfl, rfl⟩)
    next c => cases h; exact .inr (.inl ⟨rfl, c, rfl⟩)

/-- What SEG can do. -/
theorem execSeg_cases {data : List Byte} {s t : State} (h : execSeg data s = .next t) :
    (enabled (.seg data) s.fsm = false ∧ t = reject 2#4 s) ∨
    (∃ S, enabled (.seg data) s.fsm = true ∧ s.S = some S ∧ ¬ SegInContract data S s.SHORT ∧
      t = fail 2#4 s) ∨
    ∃ S R K dir, ∃ c : InBlock data.length Config.blockSize,
      enabled (.seg data) s.fsm = true ∧ s.S = some S ∧ s.R = some R ∧ s.K = some K ∧
      s.DIR = some dir ∧ SegInContract data S s.SHORT ∧ t = processSegment data S R K dir s c := by
  unfold execSeg at h
  cases e : enabled (.seg data) s.fsm with
  | false => rw [whenEnabled_of_not_enabled _ e] at h; cases h; exact .inl ⟨rfl, rfl⟩
  | true =>
    rw [whenEnabled_of_enabled _ e] at h
    obtain ⟨S, hS, h⟩ := readItem_next h
    split at h
    next c =>
      obtain ⟨R, hR, h⟩ := readItem_next h
      obtain ⟨K, hK, h⟩ := readItem_next h
      obtain ⟨dir, hD, h⟩ := readItem_next h
      cases h
      exact .inr (.inr ⟨S, R, K, dir, _, rfl, hS, hR, hK, hD, c, rfl⟩)
    next c => cases h; exact .inr (.inl ⟨S, rfl, hS, c, rfl⟩)

/-- What FINISH can do. -/
theorem execFinish_cases {s t : State} (h : execFinish s = .next t) :
    (enabled .finish s.fsm = false ∧ t = reject 3#4 s) ∨
    (enabled .finish s.fsm = true ∧
      t = respond 3#4 .ok [] { s with R := none, K := none, fsm := .done }) := by
  unfold execFinish at h
  cases e : enabled .finish s.fsm with
  | false => rw [whenEnabled_of_not_enabled _ e] at h; cases h; exact .inl ⟨rfl, rfl⟩
  | true => rw [whenEnabled_of_enabled _ e] at h; cases h; exact .inr ⟨rfl, rfl⟩

/-- What ABORT does. -/
theorem execAbort_eq (s : State) : execAbort s = .next (respond 4#4 .ok [] (clearItems s)) := rfl

/-- What STAT does. -/
theorem execStat_eq (s : State) :
    execStat s = .next (respond 5#4 .ok (wordBytes (statusWord s)) s) := rfl

/-! ### The host's ports -/

@[simp] theorem splitAtReset_sendBytes_append (bs : List Byte) (es : List HostEvent) :
    splitAtReset (sendBytes bs ++ es) = (bs ++ (splitAtReset es).1, (splitAtReset es).2) := by
  induction bs with
  | nil => rfl
  | cons b bs ih =>
    have ih : splitAtReset (bs.map .byte ++ es) = _ := ih
    simp [sendBytes, splitAtReset, ih]

@[simp] theorem splitAtReset_reset (es : List HostEvent) :
    splitAtReset (.reset :: es) = ([], .reset :: es) := rfl

/-- The bytes before the first reset and the events from it on are the whole of the events. -/
theorem sendBytes_splitAtReset (es : List HostEvent) :
    sendBytes (splitAtReset es).1 ++ (splitAtReset es).2 = es := by
  induction es with
  | nil => rfl
  | cons e es ih =>
    cases e with
    | reset => rfl
    | byte b => simpa [sendBytes, splitAtReset] using ih

@[simp] theorem sendBytes_append (xs ys : List Byte) :
    sendBytes (xs ++ ys) = sendBytes xs ++ sendBytes ys := List.map_append

/-- What the CORE finds when its ports begin with bytes of a known decoding. -/
theorem fetch_sendBytes_append (bs : List Byte) (es : List HostEvent) :
    fetch (sendBytes bs ++ es) =
      match decode (bs ++ (splitAtReset es).1) with
      | .instr i rest => .command i (sendBytes rest ++ (splitAtReset es).2)
      | .illegal _ h rest => .illegal h (sendBytes rest ++ (splitAtReset es).2)
      | .incomplete =>
        match (splitAtReset es).2 with
        | .reset :: rest => .reset rest
        | _ => .waiting := by
  cases hd : decode (bs ++ (splitAtReset es).1) <;>
    simp only [fetch, splitAtReset_sendBytes_append, hd] <;> rfl

/-- What a step can do: a command, a rejected header, a reset, or nothing. -/
theorem step_cases {s t : State} (h : step s = .next t) :
    (∃ i rest, fetch s.CMD = .command i rest ∧ exec i (setPorts rest s) = .next t) ∨
    (∃ hd rest, fetch s.CMD = .illegal hd rest ∧ t = rejectHeader hd (setPorts rest s)) ∨
    (∃ rest, fetch s.CMD = .reset rest ∧ t = resetEvent (setPorts rest s)) ∨
    (fetch s.CMD = .waiting ∧ t = s) := by
  unfold step at h
  split at h
  next i rest e => exact .inl ⟨i, rest, e, h⟩
  next hd rest e => cases h; exact .inr (.inl ⟨hd, rest, e, rfl⟩)
  next rest e => cases h; exact .inr (.inr (.inl ⟨rest, e, rfl⟩))
  next e => cases h; exact .inr (.inr (.inr ⟨e, rfl⟩))

end Sys2Proof.Machine
end

