-- ==== Sys2Proof/Laws/PerInstr.lean ====
section
/-! SUPPORT. A fact about every command as syntax: the bytes of a well-formed command are four header bytes
and exactly as many payload bytes as its header says (spec/30_encoding.md rules R65, R72). -/

namespace Sys2Proof.Laws.EncodedSize

/-- The encoding of a well-formed command is one header and `plen` payload bytes. -/
def Statement (i : Instr) : Prop :=
  i.wellFormed = true → (encode i).length = 4 + (headerOf i).payloadLength

theorem start (dir : Direction) (key iv : List Byte) (segSize : Byte) :
    Statement (.start dir key iv segSize) := by
  intro h
  simp [Instr.wellFormed, fitsLengthField] at h
  simp [encode, wordBytes, payloadOf, headerOf, Header.payloadLength]
  omega

theorem seg (data : List Byte) : Statement (.seg data) := by
  intro h
  simp [Instr.wellFormed, fitsLengthField] at h
  simp [encode, wordBytes, payloadOf, headerOf, Header.payloadLength]
  omega

theorem finish : Statement .finish := fun _ => rfl

theorem abort : Statement .abort := fun _ => rfl

theorem stat : Statement .stat := fun _ => rfl

end Sys2Proof.Laws.EncodedSize
end

