-- ==== Sys2Proof/Laws/Safety.lean ====
section
/-! SUPPORT. What the invariant of spec/10_state.md rule R37 gives a proof, and the updates that cannot break
it: responses, rejections and the host's ports are in none of its columns. -/

namespace Sys2Proof.Machine

@[simp] theorem invariant_respond (op : BitVec 4) (st : Status) (d : List Byte) (s : State) :
    (respond op st d s).invariant = s.invariant := rfl

@[simp] theorem invariant_reject (op : BitVec 4) (s : State) :
    (reject op s).invariant = s.invariant := rfl

@[simp] theorem invariant_rejectHeader (h : Word) (s : State) :
    (rejectHeader h s).invariant = s.invariant := rfl

@[simp] theorem invariant_setPorts (es : List HostEvent) (s : State) :
    (setPorts es s).invariant = s.invariant := rfl

@[simp] theorem invariant_fail (op : BitVec 4) (s : State) : (fail op s).invariant = true := rfl

@[simp] theorem invariant_clearItems (s : State) : (clearItems s).invariant = true := rfl

@[simp] theorem invariant_resetEvent (s : State) : (resetEvent s).invariant = true := rfl

/-- In a live state of the invariant the items of the invocation hold values and `ERR` is None (R37). -/
theorem live_items {s : State} (hi : s.invariant = true) (hl : s.live = true) :
    ∃ R K dir S, s.R = some R ∧ s.K = some K ∧ s.DIR = some dir ∧ s.S = some S ∧ s.ERR = .none := by
  obtain ⟨f, R, K, D, S, A, sh, e, pl, cmd, rsp⟩ := s
  cases f <;> cases R <;> cases K <;> cases D <;> cases S <;>
    simp_all [State.invariant, State.live]

/-- START is enabled exactly where no invocation is live (R112). -/
theorem enabled_start (dir : Direction) (key iv : List Byte) (n : Byte) (s : State) :
    enabled (.start dir key iv n) s.fsm = !s.live := by
  cases h : s.fsm <;> simp [enabled, State.live, h]

/-- SEG is enabled exactly where an invocation is live (R112). -/
theorem enabled_seg (data : List Byte) (s : State) : enabled (.seg data) s.fsm = s.live := by
  cases h : s.fsm <;> simp [enabled, State.live, h]

/-- FINISH is enabled exactly where an invocation is live (R112). -/
theorem enabled_finish (s : State) : enabled .finish s.fsm = s.live := by
  cases h : s.fsm <;> simp [enabled, State.live, h]

/-- An invocation is live in Ready and in Processing. -/
theorem live_iff (s : State) : s.live = true ↔ s.fsm = .ready ∨ s.fsm = .processing := by
  cases h : s.fsm <;> simp [State.live, h]

/-- No invocation is live in Idle, Done and Failed. -/
theorem not_live_iff (s : State) : s.live = false ↔ s.fsm = .idle ∨ s.fsm = .done ∨ s.fsm = .failed := by
  cases h : s.fsm <;> simp [State.live, h]

end Sys2Proof.Machine
end

