-- ==== Sys2Proof/Laws/Transform.lean ====
section
/-! SUPPORT. The recursion of chunking and of the transform, one segment at a time. -/

namespace Sys2Proof.Machine

/-! ### Chunking -/

@[simp] theorem chunk_nil (s : Nat) (hs : 1 ≤ s) : chunk s hs [] = [] := rfl

/-- The number of segments does not depend on the fuel, if there is enough of it. -/
theorem chunkFuel_enough (s : Nat) (hs : 1 ≤ s) : ∀ (f g : Nat) (x : List Byte),
    x.length ≤ f → x.length ≤ g → chunkFuel s hs f x = chunkFuel s hs g x
  | 0, 0, _, _, _ => rfl
  | 0, _ + 1, [], _, _ => rfl
  | _ + 1, 0, [], _, _ => rfl
  | _ + 1, _ + 1, [], _, _ => rfl
  | f + 1, g + 1, b :: x, hf, hg => by
    have l : ((b :: x).drop s).length ≤ f ∧ ((b :: x).drop s).length ≤ g := by
      simp only [List.length_cons, List.length_drop] at hf hg ⊢; omega
    simp only [chunkFuel, chunkFuel_enough s hs f g _ l.1 l.2]

/-- A non-empty input is its first segment and the chunks of the rest (R130). -/
theorem chunk_cons (s : Nat) (hs : 1 ≤ s) (b : Byte) (x : List Byte) :
    chunk s hs (b :: x) =
      ⟨(b :: x).take s, by simp only [List.length_take, List.length_cons]; omega⟩ ::
        chunk s hs ((b :: x).drop s) := by
  have l : ((b :: x).drop s).length ≤ x.length := by
    simp only [List.length_cons, List.length_drop]; omega
  simp only [chunk, List.length_cons, chunkFuel]
  rw [chunkFuel_enough s hs _ _ _ l le_rfl]

/-! ### One segment of the transform -/

variable {KLEN B s : Nat} (E : Bytes KLEN → Bytes B → Bytes B) (dir : Direction) (K : Bytes KLEN)
  (hs : s ≤ B) (R : Bytes B)

theorem outputOf_eq (X : Segment s) :
    outputOf E K hs R X = List.zipWith (· ^^^ ·) X.val ((E K R).toList.take X.val.length) := rfl

theorem registerOf_encrypt (X : Segment s) :
    (registerOf E .encrypt K hs R X).toList = R.toList.drop X.val.length ++ outputOf E K hs R X := rfl

theorem registerOf_decrypt (X : Segment s) :
    (registerOf E .decrypt K hs R X).toList = R.toList.drop X.val.length ++ X.val := rfl

@[simp] theorem outputOf_length (X : Segment s) : (outputOf E K hs R X).length = X.val.length := by
  have := X.property.2
  simp [outputOf_eq]; omega

end Sys2Proof.Machine
end

