-- ==== Sys2Proof/Tests/Slice0.lean ====
section
/-! SUPPORT. Tests of the model: ill-formed commands refused, command words written out from the spec's
encodings, the spec's own vectors (spec/95_test_vectors.md sections 2.1 to 2.9), and for each statement with
hypotheses a concrete state and operands that meet them. -/

namespace Sys2Proof.Tests

open Sys2Proof.Machine

/-- A byte sequence of `n` zero bytes. -/
def zeros (n : Nat) : List Byte := List.replicate n 0

theorem zeros_length (n : Nat) : (zeros n).length = n := List.length_replicate

/-! ### Well-formedness: an ill-formed term for each check -/

theorem test_wellFormed_longest :
    (Instr.start .encrypt (zeros 255) (zeros 255) 0).wellFormed = true := by
  simp [Instr.wellFormed, fitsLengthField, zeros_length]

theorem test_wellFormed_refuses_long_key :
    (Instr.start .encrypt (zeros 256) [] 0).wellFormed = false := by
  simp [Instr.wellFormed, fitsLengthField, zeros_length]

theorem test_wellFormed_refuses_long_iv :
    (Instr.start .encrypt [] (zeros 256) 0).wellFormed = false := by
  simp [Instr.wellFormed, fitsLengthField, zeros_length]

theorem test_wellFormed_refuses_long_segment :
    (Instr.seg (zeros 256)).wellFormed = false := by
  simp [Instr.wellFormed, fitsLengthField, zeros_length]

theorem test_wellFormed_no_operands :
    Instr.finish.wellFormed = true ∧ Instr.abort.wellFormed = true ∧ Instr.stat.wellFormed = true := by
  decide

/-! ### Decoding: the rows of the table in section 2.5, bit by bit -/

theorem test_decode_start_encrypt :
    decodeHeader 0b0001_0_000_00000010_00000100_00000011#32 = .ok (.start .encrypt 2 4 3) := by decide

theorem test_decode_start_decrypt :
    decodeHeader 0b0001_1_000_00000010_00000100_00000011#32 = .ok (.start .decrypt 2 4 3) := by decide

theorem test_decode_seg : decodeHeader 0b0010_00000000000000000000_00010000#32 = .ok (.seg 16) := by decide

theorem test_decode_finish : decodeHeader 0b0011_0000000000000000000000000000#32 = .ok .finish := by decide

theorem test_decode_abort : decodeHeader 0b0100_0000000000000000000000000000#32 = .ok .abort := by decide

theorem test_decode_stat : decodeHeader 0b0101_0000000000000000000000000000#32 = .ok .stat := by decide

theorem test_decode_reserved_bits :
    decodeHeader 0x19201010#32 = .error .reservedBits ∧ decodeHeader 0x20000100#32 = .error .reservedBits ∧
    decodeHeader 0x28000001#32 = .error .reservedBits ∧ decodeHeader 0x30000001#32 = .error .reservedBits ∧
    decodeHeader 0x48000000#32 = .error .reservedBits ∧ decodeHeader 0x50000004#32 = .error .reservedBits := by
  decide

theorem test_decode_reserved_opcodes :
    decodeHeader 0x00000000#32 = .error .reservedOpcode ∧
    decodeHeader 0x60000000#32 = .error .reservedOpcode ∧
    decodeHeader 0xFFFFFFFF#32 = .error .reservedOpcode := by decide

theorem test_payloadLength :
    payloadLength 0x10201010#32 = 48 ∧ payloadLength 0x10FFFFFF#32 = 510 ∧ payloadLength 0x20000010#32 = 16 ∧
    payloadLength 0x30000000#32 = 0 ∧ payloadLength 0x17201010#32 = 0 := by decide

/-- Key first, then IV (R73); the byte after the payload is left. -/
theorem test_decode_start_payload :
    decode [0x18, 0x02, 0x04, 0x03, 0x10, 0x20, 0xA0, 0xA1, 0xA2, 0xA3, 0x77] =
      .instr (.start .decrypt [0x10, 0x20] [0xA0, 0xA1, 0xA2, 0xA3] 3) [0x77] := by decide

theorem test_decode_seg_payload :
    decode [0x20, 0x00, 0x00, 0x03, 0x01, 0x02, 0x03] = .instr (.seg [1, 2, 3]) [] := by decide

theorem test_decode_incomplete :
    decode [0x20, 0x00, 0x00] = .incomplete ∧ decode [0x20, 0x00, 0x00, 0x02, 0x01] = .incomplete := by
  decide

theorem test_encode_start :
    encode (.start .encrypt [0x10, 0x20] [0xA0, 0xA1, 0xA2, 0xA3] 3) =
      [0x10, 0x02, 0x04, 0x03, 0x10, 0x20, 0xA0, 0xA1, 0xA2, 0xA3] := by decide

theorem test_encode_seg : encode (.seg [1, 2, 3]) = [0x20, 0x00, 0x00, 0x03, 1, 2, 3] := by decide

theorem test_encode_no_operands :
    encode .finish = [0x30, 0, 0, 0] ∧ encode .abort = [0x40, 0, 0, 0] ∧ encode .stat = [0x50, 0, 0, 0] := by
  decide

/-- A row of 32 bits whose length fields are not 0 is followed by payload bytes of 0. -/
theorem test_decodeTableWord :
    decodeTableWord 32 0x18010102 = some (.start .decrypt [0] [0] 2) ∧
    decodeTableWord 32 0x20000002 = some (.seg [0, 0]) ∧ decodeTableWord 32 0x30000000 = some .finish ∧
    decodeTableWord 32 0x60000000 = none := by decide

/-! ### Responses and STATUS (section 2.5) -/

theorem test_responseHeader :
    responseHeader ⟨2#4, .ok, [0xB3, 0xC6, 0xB5]⟩ = 0x20000003#32 ∧
    responseHeader ⟨1#4, .invalidLength, []⟩ = 0x10000100#32 ∧
    responseHeader ⟨15#4, .rejected, []⟩ = 0xF0000200#32 := by decide

/-- A host does not take a response with status code 11 or with a reserved bit set (log entry 21). -/
theorem test_decodeResponse_refuses :
    decodeResponse [0x20, 0x00, 0x03, 0x00] = none ∧ decodeResponse [0x20, 0x00, 0x04, 0x00] = none := by
  decide

/-! ### The internal operations (sections 2.2 to 2.4) -/

theorem test_advance_general :
    (advance (Bytes.ofList (n := 4) [0xA0, 0xA1, 0xA2, 0xA3] rfl) (Bytes.ofList (n := 3) [0xB3, 0xC6, 0xB5] rfl)
      (by decide)).toList = [0xA3, 0xB3, 0xC6, 0xB5] := by decide

theorem test_advance_whole_block :
    (advance (Bytes.ofList (n := 4) [0xA0, 0xA1, 0xA2, 0xA3] rfl)
      (Bytes.ofList (n := 4) [0x11, 0x22, 0x33, 0x44] rfl) (by decide)).toList =
      [0x11, 0x22, 0x33, 0x44] := by decide

theorem test_advance_block_of_one :
    (advance (Bytes.ofList (n := 1) [0x00] rfl) (Bytes.ofList (n := 1) [0x7F] rfl) (by decide)).toList =
      [0x7F] := by decide

/-- `E_TOY` of section 2.1. -/
def toy {KLEN B : Nat} (k : Bytes KLEN) (b : Bytes B) : Bytes B :=
  Bytes.ofList ((List.range B).map fun i =>
    b.toList.getD ((i + 1) % B) 0 + k.toList.getD (i % KLEN) 0 + BitVec.ofNat 8 (i + 1)) (by simp)

/-- The sum over `j` of `(j + 1) * x[j]`, modulo 256, counting from `j`. -/
def weightedSum (j : Nat) : List Byte → Byte
  | [] => 0
  | b :: x => BitVec.ofNat 8 (j + 1) * b + weightedSum (j + 1) x

/-- `E_MIX` of section 2.1. -/
def mix {KLEN B : Nat} (k : Bytes KLEN) (b : Bytes B) : Bytes B :=
  Bytes.ofList ((List.range B).map fun i =>
    (weightedSum 0 b.toList + weightedSum 0 k.toList) * BitVec.ofNat 8 (i + 1) +
      (b.toList.getD ((i + 1) % B) 0 + k.toList.getD (i % KLEN) 0 + BitVec.ofNat 8 (i + 1))) (by simp)

/-- The key of instance A (section 2.6). -/
def keyA : Bytes 2 := Bytes.ofList [0x10, 0x20] rfl

/-- The IV of instance A. -/
def ivA : Bytes 4 := Bytes.ofList [0xA0, 0xA1, 0xA2, 0xA3] rfl

theorem test_primitives :
    (toy keyA ivA).toList = [0xB2, 0xC4, 0xB6, 0xC4] ∧ (mix keyA ivA).toList = [0x56, 0x0C, 0xA2, 0x54] := by
  decide

theorem test_derive :
    (derive toy keyA ivA 3 (by decide)).toList = [0xB2, 0xC4, 0xB6] ∧
    (derive toy keyA ivA 1 (by decide)).toList = [0xB2] ∧
    (derive mix keyA ivA 4 (by decide)).toList = [0x56, 0x0C, 0xA2, 0x54] := by decide

theorem test_combine :
    (combine (Bytes.ofList (n := 3) [1, 2, 3] rfl) (Bytes.ofList [0xB2, 0xC4, 0xB6] rfl)).toList =
      [0xB3, 0xC6, 0xB5] ∧
    (combine (Bytes.ofList (n := 2) [0xFF, 0x80] rfl) (Bytes.ofList [0x5A, 0x01] rfl)).toList =
      [0xA5, 0x81] := by decide

theorem test_fbsel :
    (fbsel .encrypt (Bytes.ofList (n := 1) [1] rfl) (Bytes.ofList [0xB3] rfl)).toList = [0xB3] ∧
    (fbsel .decrypt (Bytes.ofList (n := 1) [1] rfl) (Bytes.ofList [0xB3] rfl)).toList = [1] := by decide

/-! ### The transform (sections 2.6 to 2.8) -/

theorem test_encrypt_by_three :
    encrypt (KLEN := 2) (B := 4) toy [0x10, 0x20] [0xA0, 0xA1, 0xA2, 0xA3] 3 [1, 2, 3, 4, 5, 6, 7] =
      .ok [0xB3, 0xC6, 0xB5, 0xC0, 0xED, 0xCE, 0xD6] := by decide

theorem test_decrypt_by_three :
    decrypt (KLEN := 2) (B := 4) toy [0x10, 0x20] [0xA0, 0xA1, 0xA2, 0xA3] 3
      [0xB3, 0xC6, 0xB5, 0xC0, 0xED, 0xCE, 0xD6] = .ok [1, 2, 3, 4, 5, 6, 7] := by decide

theorem test_encrypt_by_one :
    encrypt (KLEN := 2) (B := 4) mix [0x10, 0x20] [0xA0, 0xA1, 0xA2, 0xA3] 1 [1, 2, 3, 4, 5, 6, 7] =
      .ok [0x57, 0x2F, 0xAE, 0x4A, 0x72, 0x46, 0x5C] := by decide

theorem test_encrypt_by_whole_blocks :
    encrypt (KLEN := 2) (B := 4) toy [0x10, 0x20] [0xA0, 0xA1, 0xA2, 0xA3] 4 [1, 2, 3, 4, 5, 6, 7] =
      .ok [0xB3, 0xC6, 0xB5, 0xC0, 0xD2, 0xD1, 0xD4] := by decide

/-- The instance the source observed (R9), with a toy primitive: instance B of section 2.6, whose input is the
text of the source's first scenario, for its three segment sizes. -/
theorem test_observed_parameters :
    let text : List Byte :=
      [0x48, 0x45, 0x4C, 0x4C, 0x4F, 0x2C, 0x20, 0x43, 0x46, 0x42, 0x20, 0x4D, 0x4F, 0x44, 0x45, 0x21]
    encrypt (KLEN := 32) (B := 16) toy (zeros 32) (zeros 16) 16 text =
      .ok [0x49, 0x47, 0x4F, 0x48, 0x4A, 0x2A, 0x27, 0x4B, 0x4F, 0x48, 0x2B, 0x41, 0x42, 0x4A, 0x4A, 0x31] ∧
    encrypt (KLEN := 32) (B := 16) toy (zeros 32) (zeros 16) 8 text =
      .ok [0x49, 0x47, 0x4F, 0x48, 0x4A, 0x2A, 0x27, 0x4B, 0x47, 0x40, 0x23, 0x49, 0x4A, 0x42, 0x42, 0x70] ∧
    encrypt (KLEN := 32) (B := 16) toy (zeros 32) (zeros 16) 1 text =
      .ok [0x49, 0x44, 0x4D, 0x4D, 0x4E, 0x2D, 0x21, 0x42, 0x47, 0x43, 0x21, 0x4C, 0x4E, 0x45, 0x44, 0x6B] := by
  decide

/-- A ciphertext made with segment size 3 decrypted with 2 (section 2.7). -/
theorem test_decrypt_with_another_size :
    decrypt (KLEN := 2) (B := 4) toy [0x10, 0x20] [0xA0, 0xA1, 0xA2, 0xA3] 2
      [0xB3, 0xC6, 0xB5, 0xC0, 0xED, 0xCE, 0xD6] = .ok [1, 2, 1, 0x15, 0x3A, 0x19, 7] := by decide

theorem test_transform_refuses_bad_lengths :
    encrypt (KLEN := 2) (B := 4) toy [0x10, 0x20] [0xA0, 0xA1, 0xA2, 0xA3] 0 [] = .error .invalidLength ∧
    encrypt (KLEN := 2) (B := 4) toy [0x10, 0x20] [0xA0, 0xA1, 0xA2, 0xA3] 5 [] = .error .invalidLength ∧
    encrypt (KLEN := 2) (B := 4) toy [0x10] [0xA0, 0xA1, 0xA2, 0xA3] 3 [] = .error .invalidLength ∧
    encrypt (KLEN := 2) (B := 4) toy [0x10, 0x20] [0xA0, 0xA1, 0xA2] 3 [] = .error .invalidLength := by decide

/-- The lengths of the segments in the examples of R130. -/
theorem test_chunk_lengths :
    (chunk 3 (by decide) (List.replicate 7 0)).map (fun X => X.val.length) = [3, 3, 1] ∧
    (chunk 16 (by decide) (List.replicate 16 0)).map (fun X => X.val.length) = [16] ∧
    (chunk 1 (by decide) ([] : List Byte)).length = 0 := by decide

/-! ### Text (R82) -/

theorem test_parse_seg : parseLine "SEG 01 0203 # three bytes".toList = some (some (.command (.seg [1, 2, 3]))) := by
  decide

theorem test_parse_decrypt :
    parseLine "DECRYPT s=3, key=10 20, iv=, in=FF".toList =
      some (some (.transform .decrypt [0x10, 0x20] [] 3 [0xFF])) := by decide

/-- Every digit as it is written is read back, and in lower case too. -/
theorem test_hex_digits :
    (∀ n < 16, hexDigit (hexChar n) = some n) ∧ hexDigit 'f' = some 15 ∧ hexDigit 'G' = none ∧
    decimalDigit '9' = some 9 ∧ decimalDigit 'A' = none := by decide

theorem test_response_text : responseText ⟨2#4, .ok, [0xB3, 0x0C]⟩ = "-> OK B30C".toList := by decide

/-! ### States to test on: a live invocation with the smallest segment size, and the states around it -/

/-- A segment size every instance has. -/
def sizeOne : SegSize := ⟨1, le_rfl, Config.one_le_blockSize⟩

/-- The whole block as segment size. -/
def sizeBlock : SegSize := ⟨Config.blockSize, Config.one_le_blockSize, le_rfl⟩

/-- A key of `KLEN` zero bytes. -/
def zeroKey : Bytes Config.keyLen := Vector.replicate _ 0

/-- An IV of `B` zero bytes. -/
def zeroIv : Bytes Config.blockSize := Vector.replicate _ 0

/-- Ready, after a START with the zero key and IV. -/
def ready : State :=
  { State.reset with fsm := .ready, R := some zeroIv, K := some zeroKey, DIR := some .decrypt, S := some sizeOne }

/-- Processing, after one segment of that invocation. -/
def processing : State := { ready with fsm := .processing, ACC := [7] }

/-- Done, after that invocation. -/
def done : State := { processing with fsm := .done, R := none, K := none }

/-- Failed. -/
def failed : State := { State.reset with fsm := .failed, ERR := .invalidLength }

/-- A state with bytes and events on its ports. -/
def withBytes (bs : List Byte) (s : State) : State := setPorts (sendBytes bs) s

/-- The zero operands are in contract with segment size 1. -/
theorem inContract : StartInContract zeroKey.toList zeroIv.toList 1 :=
  ⟨⟨by decide, Config.one_le_blockSize⟩, by simp, by simp⟩

/-- An empty key is out of contract. -/
theorem emptyKey_out_of_contract (iv : List Byte) (n : Byte) : ¬ StartInContract [] iv n :=
  fun h => absurd h.2.1 (by have := Config.one_le_keyLen; simp; omega)

/-! ### STATUS in these states (section 2.5), and one or two steps per command -/

theorem test_status_words :
    statusWord State.reset = 0x00000000#32 ∧ statusWord ready = 0x00000111#32 ∧
    statusWord { processing with SHORT := true } = 0x00000132#32 ∧ statusWord done = 0x00000113#32 ∧
    statusWord failed = 0x0000000C#32 := by decide

theorem test_start_fails_on_segment_size_zero :
    step (withBytes [0x10, 0, 0, 0] done) =
      .next { failed with RSP := [⟨1#4, .invalidLength, []⟩] } := rfl

theorem test_start_rejected_while_live :
    step (withBytes [0x10, 0, 0, 0] processing) =
      .next { processing with RSP := [⟨1#4, .rejected, []⟩] } := rfl

/-- In Decrypt the register takes the input, here the whole of a block of one byte or its last byte. -/
theorem test_seg_decrypt :
    ∃ t, exec (.seg [0xB3]) ready = .next t ∧ t.fsm = .processing ∧ t.SHORT = false ∧ t.PLOG.length = 1 ∧
      t.R.map (fun R => R.toList.getLast?) = some (some 0xB3) :=
  ⟨_, execSeg_in_contract (R := zeroIv) (K := zeroKey) (dir := .decrypt) rfl rfl rfl rfl rfl (by decide), rfl,
    rfl, rfl, by simp [processSegment, segmentRegister, fbsel, advance, respond, logRequest]⟩

theorem test_seg_fails_on_empty_segment :
    exec (.seg []) ready = .next { failed with RSP := [⟨2#4, .invalidLength, []⟩] } := rfl

theorem test_finish :
    step (withBytes [0x30, 0, 0, 0] processing) = .next { done with RSP := [⟨3#4, .ok, []⟩] } := rfl

theorem test_finish_rejected_in_done :
    exec .finish done = .next { done with RSP := [⟨3#4, .rejected, []⟩] } := rfl

theorem test_abort :
    step (withBytes [0x40, 0, 0, 0] failed) = .next { State.reset with RSP := [⟨4#4, .ok, []⟩] } := rfl

theorem test_stat :
    exec .stat failed = .next { failed with RSP := [⟨5#4, .ok, [0, 0, 0, 0x0C]⟩] } := rfl

theorem test_reset :
    step { processing with CMD := [.byte 0x30, .byte 0, .reset, .byte 0x50] } =
      .next { State.reset with CMD := [.byte 0x50] } := rfl

/-- The bits of a row run as the first command after reset. -/
theorem test_withFetchWord :
    step (State.reset.withFetchWord 32 0x50000000) =
      .next { State.reset with RSP := [⟨5#4, .ok, [0, 0, 0, 0]⟩] } := rfl

/-! ### Witnesses: for each statement with hypotheses, a state and operands that meet them -/

theorem test_witness_invariant_rows :
    State.reset.invariant = true ∧ ready.invariant = true ∧ processing.invariant = true ∧
    done.invariant = true ∧ failed.invariant = true := by decide

/-- StepKeepsInvariant, InvariantStepIsSafe: a live state of the invariant that steps. -/
theorem test_witness_invariant_step :
    (withBytes [0x30, 0, 0, 0] processing).invariant = true ∧
    step (withBytes [0x30, 0, 0, 0] processing) = .next { done with RSP := [⟨3#4, .ok, []⟩] } := ⟨rfl, rfl⟩

/-- ErrExactlyWhenFailed: both sides occur. -/
theorem test_witness_err :
    failed.invariant = true ∧ failed.ERR = .invalidLength ∧ done.invariant = true ∧ done.fsm ≠ .failed := by
  decide

/-- EncodeOfDecode: bytes that decode, with a byte after them. -/
theorem test_witness_encodeOfDecode : decode [0x20, 0, 0, 1, 9, 7] = .instr (.seg [9]) [7] := by decide

/-- DecodingFollowsOpcodeMap: a header that selects a row of the map. -/
theorem test_witness_opcodeMap :
    ∃ r ∈ opcodeMap, r.selects 0x1FFFFFFF#32 = false ∧ r.selects 0x18FFFFFF#32 = true := by decide

/-- ReservedHeadersRefused: each clause at the ends of its range, and each reserved field. -/
theorem test_witness_reserved :
    (opField 0x0FFFFFFF#32).toNat = 0 ∧ (opField 0x60000000#32).toNat = 6 ∧
    (opField 0xF0000000#32).toNat = 15 ∧
    (opField 0x11000000#32 = 1#4 ∧ (0x11000000#32).extractLsb' 24 3 ≠ 0#3) ∧
    (opField 0x20000100#32 = 2#4 ∧ (0x20000100#32).extractLsb' 8 20 ≠ 0#20) ∧
    (opField 0x30000001#32 = 3#4 ∧ (0x30000001#32).extractLsb' 0 28 ≠ 0#28) ∧
    (opField 0x48000000#32 = 4#4 ∧ (0x48000000#32).extractLsb' 0 28 ≠ 0#28) ∧
    (opField 0x50000004#32 = 5#4 ∧ (0x50000004#32).extractLsb' 0 28 ≠ 0#28) := by decide

/-- ResponseHeaderLayout, ResponseReadBack: the longest payload and the shortest. -/
theorem test_witness_response :
    (Response.mk 2#4 .ok (zeros 255)).data.length ≤ 255 ∧
    (Response.mk 0#4 .rejected []).data.length ≤ 255 := by
  simp [zeros_length]

/-- AdvanceByteByByte, AdvanceByWholeBlock, DeriveTakesFirstBytes, PackedAdvanceIsShift: the ends of the
range of segment lengths, and an index in each part of the register. -/
theorem test_witness_inBlock :
    InBlock 1 4 ∧ InBlock 4 4 ∧ InBlock 1 1 ∧ 2 < 4 - 1 ∧ 3 < 4 ∧ ¬ 3 < 4 - 1 := by decide

/-- ExecutedExactlyWhenEnabled, and the rejections of START, SEG and FINISH: every state. -/
theorem test_witness_fsm :
    ready.fsm = .ready ∧ processing.fsm = .processing ∧ State.reset.fsm = .idle ∧ done.fsm = .done ∧
    failed.fsm = .failed := by decide

/-- StartBeginsInvocationOrFails: the first clause at both ends of the segment sizes. -/
theorem test_witness_start_ok :
    (State.reset.fsm = .idle ∨ State.reset.fsm = .done ∨ State.reset.fsm = .failed) ∧
    sizeOne.val = 1 ∧ sizeBlock.val = Config.blockSize := ⟨.inl rfl, rfl, rfl⟩

/-- StartBeginsInvocationOrFails: the second clause, each cause that every instance shows. -/
theorem test_witness_start_fails :
    (done.fsm = .idle ∨ done.fsm = .done ∨ done.fsm = .failed) ∧
    ([] : List Byte).length ≠ Config.keyLen ∧ (zeros 256).length ≠ Config.keyLen ∧
    ([] : List Byte).length ≠ Config.blockSize ∧ (0 : Byte).toNat < 1 :=
  ⟨.inr (.inl rfl), by have := Config.one_le_keyLen; simp; omega,
    by have := Config.keyLen_le; rw [zeros_length]; omega, by have := Config.one_le_blockSize; simp; omega, by decide⟩

/-- SegProcessesSegmentOrFails: the first clause with the shortest segment and with a whole block. -/
theorem test_witness_seg_ok :
    (ready.fsm = .ready ∨ ready.fsm = .processing) ∧ ready.S = some sizeOne ∧ ready.R = some zeroIv ∧
    ready.K = some zeroKey ∧ ready.DIR = some .decrypt ∧ ready.SHORT = false ∧
    1 ≤ [(5 : Byte)].length ∧ [(5 : Byte)].length ≤ sizeOne.val ∧
    1 ≤ zeroIv.toList.length ∧ zeroIv.toList.length ≤ sizeBlock.val :=
  ⟨.inl rfl, rfl, rfl, rfl, rfl, rfl, by decide, by decide, by simpa using Config.one_le_blockSize,
    by simp [sizeBlock]⟩

/-- SegProcessesSegmentOrFails: the second clause, each of its three causes. -/
theorem test_witness_seg_fails :
    (processing.fsm = .ready ∨ processing.fsm = .processing) ∧ processing.S = some sizeOne ∧
    ([] : List Byte).length = 0 ∧ sizeOne.val < [(1 : Byte), 2].length ∧
    { processing with SHORT := true }.SHORT = true := ⟨.inr rfl, rfl, rfl, by decide, rfl⟩

/-- SegFaultsOnMissingItem: each item missing in turn, in states that R37 rules out. -/
theorem test_witness_seg_faults :
    exec (.seg [1]) { ready with S := none } = .fault (.readNone .S) ∧
    exec (.seg [1]) { ready with R := none } = .fault (.readNone .R) ∧
    exec (.seg [1]) { ready with K := none } = .fault (.readNone .K) ∧
    exec (.seg [1]) { ready with DIR := none } = .fault (.readNone .DIR) := ⟨rfl, rfl, rfl, rfl⟩

/-- CommandFrame, OneResponsePerCommand, OnePrimRequestPerSegment, FsmTransitions: every command reaches a
next state, where it is enabled and where it is not. -/
theorem test_witness_commands_complete :
    (∃ t, exec (.start .encrypt zeroKey.toList zeroIv.toList 1) State.reset = .next t ∧ t.fsm = .ready) ∧
    (∃ t, exec (.start .encrypt [] [] 1) failed = .next t ∧ t.fsm = .failed) ∧
    (∃ t, exec (.seg [5]) ready = .next t ∧ t.fsm = .processing) ∧
    (∃ t, exec (.seg [5, 6]) ready = .next t ∧ t.fsm = .failed) ∧
    (∃ t, exec .finish ready = .next t ∧ t.fsm = .done) ∧ (∃ t, exec .abort ready = .next t ∧ t.fsm = .idle) ∧
    (∃ t, exec .stat ready = .next t ∧ t.fsm = .ready) ∧ (∃ t, exec (.seg [5]) done = .next t ∧ t.fsm = .done) :=
  ⟨⟨_, execStart_in_contract rfl inContract, rfl⟩,
    ⟨_, execStart_out_of_contract rfl (emptyKey_out_of_contract _ _), rfl⟩,
    ⟨_, execSeg_in_contract (R := zeroIv) (K := zeroKey) (dir := .decrypt) rfl rfl rfl rfl rfl (by decide), rfl⟩,
    ⟨_, execSeg_out_of_contract (S := sizeOne) rfl rfl (by decide), rfl⟩, ⟨_, rfl, rfl⟩, ⟨_, rfl, rfl⟩,
    ⟨_, rfl, rfl⟩, ⟨_, rfl, rfl⟩⟩

/-- KeyAndSizeFixedWhileLive, NoShortSegmentAtSizeOne, HistoryIsUnread: a step from a live state to one. -/
theorem test_witness_live_step :
    ready.live = true ∧ ready.SHORT = false ∧
    ∃ t, step (withBytes [0x50, 0, 0, 0] ready) = .next t ∧ t.live = true := ⟨rfl, rfl, _, rfl, rfl⟩

/-- NoShortSegmentAtSizeOne: with `SHORT` set, which takes a block of at least two bytes. -/
theorem test_witness_short (h : 2 ≤ Config.blockSize) :
    ∃ s t : State, s.SHORT = true ∧ (∃ S, s.S = some S ∧ 2 ≤ S.val) ∧
      step (withBytes [0x50, 0, 0, 0] s) = .next t :=
  ⟨{ processing with SHORT := true, S := some sizeBlock }, _, rfl, ⟨sizeBlock, rfl, h⟩, rfl⟩

/-- StartForgetsThePast: the same START from Done and from Failed. -/
theorem test_witness_start_twice :
    done.live = false ∧ failed.live = false ∧
    (∃ t, exec (.start .decrypt zeroKey.toList zeroIv.toList 1) done = .next t) ∧
    ∃ t, exec (.start .decrypt zeroKey.toList zeroIv.toList 1) failed = .next t :=
  ⟨rfl, rfl, ⟨_, execStart_in_contract rfl inContract⟩, ⟨_, execStart_in_contract rfl inContract⟩⟩

/-- RegistersNotReadable: a command other than SEG, in a live state. -/
theorem test_witness_not_seg :
    (∀ data, Instr.stat ≠ .seg data) ∧ ∃ t, exec .stat ready = .next t := ⟨nofun, _, rfl⟩

/-- StepRunsDecodedCommand, DecodeOfEncode: a well-formed command on CMD, with a byte after it. -/
theorem test_witness_decoded_command :
    (Instr.seg [9]).wellFormed = true ∧
    (withBytes [0x20, 0, 0, 1, 9, 7] ready).CMD = sendBytes (encode (.seg [9])) ++ [.byte 7] := by decide

/-- StepRejectsIllegalHeader: a header of a reserved opcode, with a byte after it. -/
theorem test_witness_illegal_header :
    decodeHeader (wordOfBytes 0x60 0 0 0) = .error .reservedOpcode ∧
    (withBytes [0x60, 0, 0, 0, 7] ready).CMD = sendBytes [0x60, 0, 0, 0] ++ [.byte 7] ∧
    decodeHeader (wordOfBytes 0x30 0 0 1) = .error .reservedBits := by decide

/-- StepTakesReset, StepWaitsForHost: part of a command, and nothing at all. -/
theorem test_witness_incomplete :
    decode [0x20, 0, 0, 2, 5] = .incomplete ∧ decode [] = .incomplete ∧
    ({ ready with CMD := [.byte 0x20, .byte 0, .reset] } : State).CMD = sendBytes [0x20, 0] ++ .reset :: [] := by
  decide

/-- InstancesAreIndependent needs nothing; two instances, one of them stepped twice. -/
theorem test_instances :
    runSchedule [0, 0] [.next (withBytes [0x40, 0, 0, 0] ready), .next ready] =
      [.next { State.reset with RSP := [⟨4#4, .ok, []⟩] }, .next ready] := rfl

/-- TransformCommandsComputeTransform, StepsComputeTransform, EmptyInputCompletes: in contract, from a state
without a live invocation, with a defined result for every input. -/
theorem test_witness_transform (x : List Byte) :
    State.reset.live = false ∧ StartInContract zeroKey.toList zeroIv.toList 1 ∧ 1 ≤ (1 : Byte).toNat ∧
    ∃ y, transform Config.E .encrypt zeroKey.toList zeroIv.toList (1 : Byte).toNat x = .ok y :=
  ⟨rfl, inContract, by decide, _, dif_pos ⟨inContract.1, inContract.2⟩⟩

/-- TransformCommandsComputeTransform: out of contract. -/
theorem test_witness_transform_fails :
    done.live = false ∧ ¬ StartInContract [] zeroIv.toList 1 := ⟨rfl, emptyKey_out_of_contract _ _⟩

/-- AcceptedStreamIsTransform: an invocation that is live after a segment. -/
theorem test_witness_stream :
    ∃ t, execAll (.start .decrypt zeroKey.toList zeroIv.toList 1 :: [[(5 : Byte)]].map .seg) State.reset = .next t ∧
      t.live = true := by
  refine ⟨processSegment [5] sizeOne zeroIv zeroKey .decrypt
    (respond 1#4 .ok [] (beginInvocation .decrypt zeroKey.toList zeroIv.toList 1 State.reset inContract))
    ⟨le_rfl, Config.one_le_blockSize⟩, ?_, rfl⟩
  simp only [execAll, exec, List.map_cons, List.map_nil, execStart_in_contract (s := State.reset) rfl inContract]
  rw [execSeg_in_contract (S := sizeOne) (R := zeroIv) (K := zeroKey) (dir := .decrypt) rfl rfl rfl rfl rfl
    (by decide)]

/-- TransformPreservesLength, DecryptInvertsEncrypt, DecryptionFromCiphertextAlone, RegisterIsLastCiphertext,
DecryptionMakesSameRequests, PrimRequestCount: `test_encrypt_by_three` and `test_decrypt_by_three` meet their
hypotheses; the register of the spec's example of R134. -/
theorem test_witness_register :
    (segmentsRegister toy .encrypt keyA (by decide : 3 ≤ 4) ivA (chunk 3 (by decide) [1, 2, 3, 4, 5, 6])).toList =
      [0xB5, 0xC0, 0xED, 0xCE] ∧
    (lastBlock ivA [0xB3, 0xC6, 0xB5, 0xC0, 0xED, 0xCE]).toList = [0xB5, 0xC0, 0xED, 0xCE] := by decide

/-- ErrorPropagationIsBounded: the row `p = 2` of section 2.8, which damages bytes 2 to 8. -/
theorem test_witness_error_propagation :
    decrypt (KLEN := 2) (B := 4) mix keyA.toList ivA.toList 3
      [0x57, 0x0E, 0xA1, 0xB3, 0xCB, 0xA7, 0x1F, 0x9D, 0xBF, 0x32, 0xC4, 0xE6] =
        .ok [1, 2, 3, 4, 5, 6, 7, 8, 9, 10, 11, 12] ∧
    ∃ D', decrypt (KLEN := 2) (B := 4) mix keyA.toList ivA.toList 3
      [0x57, 0x0E, 0x5E, 0xB3, 0xCB, 0xA7, 0x1F, 0x9D, 0xBF, 0x32, 0xC4, 0xE6] = .ok D' ∧
      (List.range 12).filter (fun q => D'.getD q 0 ≠ BitVec.ofNat 8 (q + 1)) = [2, 3, 4, 5, 6, 7, 8] :=
  ⟨by decide, _, rfl, by decide⟩

/-- OutputsAgreeOnFirstSegment: `test_encrypt_by_three` and this, which agree on one byte. -/
theorem test_witness_two_sizes :
    encrypt (KLEN := 2) (B := 4) toy [0x10, 0x20] [0xA0, 0xA1, 0xA2, 0xA3] 1 [1, 2, 3, 4, 5, 6, 7] =
      .ok [0xB3, 0xB1, 0xB7, 0xC0, 0xC7, 0xCE, 0xD6] := by decide

/-- IdentityPrimitiveIgnoresSegmentSize: two segment sizes with the identity as primitive (section 2.6). -/
theorem test_witness_identity :
    encrypt (fun (_ : Bytes 2) (b : Bytes 4) => b) keyA.toList ivA.toList 3 [1, 2, 3, 4, 5, 6, 7] =
      .ok [0xA1, 0xA3, 0xA1, 0xA7, 0xA4, 0xA5, 0xA6] ∧
    encrypt (fun (_ : Bytes 2) (b : Bytes 4) => b) keyA.toList ivA.toList 4 [1, 2, 3, 4, 5, 6, 7] =
      .ok [0xA1, 0xA3, 0xA1, 0xA7, 0xA4, 0xA5, 0xA6] := by decide

end Sys2Proof.Tests
end

section
/-! PROOFS of the family 00_scope.md: where the invariant of R37 holds every step answers a next state (R12,
R160), and outside it a SEG of a live invocation stops at the first item it would read that holds `NONE`
(R12, D27). -/

namespace Sys2Proof.Machine

/-! ### One arm of `exec` per command -/

@[simp] theorem exec_start (dir : Direction) (key iv : List Byte) (n : Byte) (s : State) :
    exec (.start dir key iv n) s = execStart dir key iv n s := rfl

@[simp] theorem exec_seg (data : List Byte) (s : State) : exec (.seg data) s = execSeg data s := rfl

@[simp] theorem exec_finish (s : State) : exec .finish s = execFinish s := rfl

@[simp] theorem exec_abort (s : State) : exec .abort s = execAbort s := rfl

@[simp] theorem exec_stat (s : State) : exec .stat s = execStat s := rfl

/-! ### The reads of SEG in their order (log entry 8) -/

section
variable {data : List Byte} {s : State}

/-- An enabled SEG reads `S` first. -/
theorem execSeg_missing_S (e : enabled (.seg data) s.fsm = true) (hS : s.S = none) :
    execSeg data s = .fault (.readNone .S) :=
  (whenEnabled_of_enabled _ e).trans (by rw [hS, readItem_of_none])

/-- An enabled SEG with its operand in contract goes on to read `R`, `K` and `DIR`. -/
theorem execSeg_reads {S : SegSize} (e : enabled (.seg data) s.fsm = true) (hS : s.S = some S)
    (c : SegInContract data S s.SHORT) :
    execSeg data s =
      readItem .R s.R fun R => readItem .K s.K fun K => readItem .DIR s.DIR fun dir =>
        .next (processSegment data S R K dir s ⟨c.1.1, c.1.2.trans S.le_blockSize⟩) :=
  (whenEnabled_of_enabled _ e).trans (by rw [hS, readItem_of_some, dif_pos c])

end

/-! ### Progress: what answers a next state -/

/-- The gate of the enablement table answers a next state if what it guards does: a rejection is one (R119). -/
theorem whenEnabled_answers {i : Instr} {s : State} {k : Host.Outcome State Fault Refusal}
    (hk : enabled i s.fsm = true → ∃ t, k = .next t) : ∃ t, whenEnabled i s k = .next t := by
  cases e : enabled i s.fsm with
  | false => exact ⟨_, whenEnabled_of_not_enabled k e⟩
  | true => rw [whenEnabled_of_enabled k e]; exact hk e

/-- SEG reads no item that holds `NONE`: it is executed only where an invocation is live, and there the
invariant gives every item it reads a value. -/
theorem execSeg_answers {s : State} (hi : s.invariant = true) (data : List Byte) :
    ∃ t, execSeg data s = .next t := by
  cases e : enabled (.seg data) s.fsm with
  | false => exact ⟨_, whenEnabled_of_not_enabled _ e⟩
  | true =>
    have hl : s.live = true := enabled_seg data s ▸ e
    obtain ⟨R, K, dir, S, hR, hK, hD, hS, -⟩ := live_items hi hl
    by_cases c : SegInContract data S s.SHORT
    · exact ⟨_, execSeg_in_contract e hS hR hK hD c⟩
    · exact ⟨_, execSeg_out_of_contract e hS c⟩

/-- Every command answers a next state where the invariant holds; only SEG needs the invariant. -/
theorem exec_answers {s : State} (hi : s.invariant = true) (i : Instr) : ∃ t, exec i s = .next t := by
  cases i with
  | start dir key iv n => rw [exec_start]; exact whenEnabled_answers fun _ => ⟨_, rfl⟩
  | seg data => rw [exec_seg]; exact execSeg_answers hi data
  | finish => rw [exec_finish]; exact whenEnabled_answers fun _ => ⟨_, rfl⟩
  | abort => rw [exec_abort, execAbort_eq]; exact ⟨_, rfl⟩
  | stat => rw [exec_stat, execStat_eq]; exact ⟨_, rfl⟩

/-- A step answers a next state wherever the command it takes does: a rejected header, a reset and a wait
always answer one. -/
theorem safeStep_of_exec {s : State}
    (h : ∀ i rest, fetch s.CMD = .command i rest → ∃ t, exec i (setPorts rest s) = .next t) :
    safeStep s := by
  unfold safeStep step
  split
  next i rest e => exact h i rest e
  next hd rest => exact ⟨_, rfl⟩
  next rest => exact ⟨_, rfl⟩
  next => exact ⟨_, rfl⟩

/-! ### The obligations -/

/-- Settles O4: taking a command from the ports keeps the invariant, and under the invariant every command
answers a next state. -/
theorem invariantStepIsSafe : Obligations.InvariantStepIsSafe := fun s hi =>
  safeStep_of_exec fun i rest _ => exec_answers ((invariant_setPorts rest s).trans hi) i

/-- Settles O28: `S` is read before the length check; behind it the reads of `R`, `K` and `DIR` stop at the
first item that holds `NONE`. -/
theorem segFaultsOnMissingItem : Obligations.SegFaultsOnMissingItem := by
  intro s data S hf
  have e : enabled (.seg data) s.fsm = true := (enabled_seg data s).trans ((live_iff s).mpr hf)
  refine ⟨execSeg_missing_S e, fun hS hpos hle hshort => ?_⟩
  rw [exec_seg, execSeg_reads e hS ⟨⟨hpos, hle⟩, hshort⟩]
  refine ⟨fun hR => ?_, fun hR hK => ?_, fun hR hK hD => ?_⟩
  · rw [hR, readItem_of_none]
  · obtain ⟨R, hR⟩ := Option.ne_none_iff_exists'.mp hR
    rw [hR, readItem_of_some, hK, readItem_of_none]
  · obtain ⟨R, hR⟩ := Option.ne_none_iff_exists'.mp hR
    obtain ⟨K, hK⟩ := Option.ne_none_iff_exists'.mp hK
    rw [hR, readItem_of_some, hK, readItem_of_some, hD, readItem_of_none]

end Sys2Proof.Machine
end

section
/-! PROOFS of the family 10_state.md: the reset values (R39), the table of R37 and its preservation by every step,
the frame of every command (R38), and what no command reads: `R` and `K` outside SEG (R35), PLOG anywhere (R30). -/

namespace Sys2Proof.Machine

/-! ### The table of R37 after each update that changes one of its columns -/

/-- A new invocation is in the row of Ready. -/
@[simp] theorem invariant_beginInvocation (dir : Direction) (key iv : List Byte) (n : Byte) (s : State)
    (h : StartInContract key iv n) : (beginInvocation dir key iv n s h).invariant = true := rfl

/-- A processed segment leads to the row of Processing: its items hold values as before, and `ACC` is not empty
because the segment is not. -/
theorem invariant_processSegment {data : List Byte} {S : SegSize} {R : Bytes Config.blockSize}
    {K : Bytes Config.keyLen} {dir : Direction} {s : State} (h : InBlock data.length Config.blockSize)
    (hi : s.invariant = true) (hl : s.live = true) : (processSegment data S R K dir s h).invariant = true := by
  obtain ⟨_, _, _, _, -, hK, hD, hS, hE⟩ := live_items hi hl
  have hACC : (processSegment data S R K dir s h).ACC ≠ [] := fun e => by
    have hlen := congrArg List.length e
    rw [processSegment_ACC, List.length_append, segmentOutput_length, List.length_nil] at hlen
    omega
  simp [State.invariant, hK, hD, hS, hE, -processSegment_ACC, hACC]

/-- FINISH of a live invocation leads to the row of Done: `DIR` and `S` hold values as before. -/
theorem invariant_finished {s : State} (hi : s.invariant = true) (hl : s.live = true) :
    ({ s with R := none, K := none, fsm := .done } : State).invariant = true := by
  obtain ⟨_, _, _, _, -, -, hD, hS, hE⟩ := live_items hi hl
  simp [State.invariant, hD, hS, hE]

/-- Every command keeps the invariant of R37. -/
theorem exec_keeps_invariant {i : Instr} {s t : State} (hi : s.invariant = true) (h : exec i s = .next t) :
    t.invariant = true := by
  cases i with
  | start dir key iv n =>
    obtain ⟨-, rfl⟩ | ⟨-, -, rfl⟩ | ⟨c, -, rfl⟩ := execStart_cases h
    · rwa [invariant_reject]
    · exact invariant_fail _ _
    · rw [invariant_respond, invariant_beginInvocation]
  | seg data =>
    obtain ⟨-, rfl⟩ | ⟨S, -, -, -, rfl⟩ | ⟨S, R, K, dir, c, e, -, -, -, -, -, rfl⟩ := execSeg_cases h
    · rwa [invariant_reject]
    · exact invariant_fail _ _
    · exact invariant_processSegment c hi (enabled_seg data s ▸ e)
  | finish =>
    obtain ⟨-, rfl⟩ | ⟨e, rfl⟩ := execFinish_cases h
    · rwa [invariant_reject]
    · rw [invariant_respond]
      exact invariant_finished hi (enabled_finish s ▸ e)
  | abort => cases h; exact invariant_clearItems s
  | stat => cases h; exact hi

/-! ### Reset and the state invariant -/

/-- Settles O3: a command keeps the invariant, a rejected header and a wait change no column of the table, and a
reset leads to the row of Idle. -/
theorem stepKeepsInvariant : Obligations.StepKeepsInvariant := by
  intro s t hi h
  obtain ⟨i, rest, -, h⟩ | ⟨hd, rest, -, rfl⟩ | ⟨rest, -, rfl⟩ | ⟨-, rfl⟩ := step_cases h
  · exact exec_keeps_invariant ((invariant_setPorts rest s).trans hi) h
  · rwa [invariant_rejectHeader, invariant_setPorts]
  · exact invariant_resetEvent _
  · exact hi

/-- Settles O1. -/
theorem resetValues : Obligations.ResetValues :=
  ⟨rfl, rfl, rfl, rfl, rfl, rfl, rfl, rfl, rfl, by decide⟩

/-- Settles O2: reset is the row of Idle. -/
theorem resetMeetsInvariant : Obligations.ResetMeetsInvariant := invariant_clearItems State.reset

/-- Settles O5: `ERR` is the last column of the table of R37, and InvalidLength stands in the row of Failed
only. -/
theorem errExactlyWhenFailed : Obligations.ErrExactlyWhenFailed := by
  intro s hi
  unfold State.invariant at hi
  split at hi
  all_goals
    next hf =>
      have hE : s.ERR = _ := of_decide_eq_true (Bool.and_elim_right hi)
      simp [hf, hE]

/-! ### The frame of the commands -/

/-- Settles O29: every outcome of a command is a rejection, `Fail()` or its own update, and none of them writes
what the command's row leaves blank. -/
theorem commandFrame : Obligations.CommandFrame := by
  intro i s t h
  cases i with
  | start dir key iv n =>
    obtain ⟨-, rfl⟩ | ⟨-, -, rfl⟩ | ⟨c, -, rfl⟩ := execStart_cases h <;> exact ⟨rfl, rfl⟩
  | seg data =>
    obtain ⟨-, rfl⟩ | ⟨S, -, -, -, rfl⟩ | ⟨S, R, K, dir, c, -, -, -, -, -, -, rfl⟩ := execSeg_cases h
    · exact ⟨rfl, fun _ => ⟨rfl, rfl, rfl, rfl⟩⟩
    · exact ⟨rfl, fun hf => absurd (fail_fsm _ s) hf⟩
    · exact ⟨rfl, fun _ => ⟨rfl, rfl, rfl, rfl⟩⟩
  | finish =>
    obtain ⟨-, rfl⟩ | ⟨-, rfl⟩ := execFinish_cases h <;> exact ⟨rfl, rfl, rfl, rfl, rfl, rfl, rfl⟩
  | abort => cases h; exact ⟨rfl, rfl⟩
  | stat => cases h; exact ⟨rfl, rfl, rfl, rfl, rfl, rfl, rfl, rfl, rfl, rfl⟩

/-! ### What the commands do not read

The same command from two states that differ only in items it does not read: it takes the same path in both. -/

/-- Settles O36: the enablement table reads `fsm`, START's checks read its operands, STATUS shows neither `R`
nor `K`. -/
theorem registersNotReadable : Obligations.RegistersNotReadable := by
  intro i s t R K hseg h
  cases i with
  | start dir key iv n =>
    obtain ⟨e, rfl⟩ | ⟨e, c, rfl⟩ | ⟨c, e, rfl⟩ := execStart_cases h
    · exact ⟨_, whenEnabled_of_not_enabled _ e, rfl, rfl, rfl⟩
    · exact ⟨_, execStart_out_of_contract e c, rfl, rfl, rfl⟩
    · exact ⟨_, execStart_in_contract (s := { s with R := R, K := K }) e c, rfl, rfl, rfl⟩
  | seg data => exact absurd rfl (hseg data)
  | finish =>
    obtain ⟨e, rfl⟩ | ⟨e, rfl⟩ := execFinish_cases h
    · exact ⟨_, whenEnabled_of_not_enabled _ e, rfl, rfl, rfl⟩
    · exact ⟨_, whenEnabled_of_enabled _ e, rfl, rfl, rfl⟩
  | abort => cases h; exact ⟨_, execAbort_eq _, rfl, rfl, rfl⟩
  | stat => cases h; exact ⟨_, execStat_eq _, rfl, rfl, rfl⟩

/-- With any other history a command does the same, but for the history (R30). -/
theorem exec_with_history {i : Instr} {s t : State} (log : List PrimRequest) (h : exec i s = .next t) :
    ∃ t', exec i { s with PLOG := log } = .next t' ∧ ({ t' with PLOG := [] } : State) = { t with PLOG := [] } := by
  cases i with
  | start dir key iv n =>
    obtain ⟨e, rfl⟩ | ⟨e, c, rfl⟩ | ⟨c, e, rfl⟩ := execStart_cases h
    · exact ⟨_, whenEnabled_of_not_enabled _ e, rfl⟩
    · exact ⟨_, execStart_out_of_contract e c, rfl⟩
    · exact ⟨_, execStart_in_contract (s := { s with PLOG := log }) e c, rfl⟩
  | seg data =>
    obtain ⟨e, rfl⟩ | ⟨S, e, hS, c, rfl⟩ | ⟨S, R, K, dir, _, e, hS, hR, hK, hD, c, rfl⟩ := execSeg_cases h
    · exact ⟨_, whenEnabled_of_not_enabled _ e, rfl⟩
    · exact ⟨_, execSeg_out_of_contract e hS c, rfl⟩
    · exact ⟨_, execSeg_in_contract (s := { s with PLOG := log }) e hS hR hK hD c, rfl⟩
  | finish =>
    obtain ⟨e, rfl⟩ | ⟨e, rfl⟩ := execFinish_cases h
    · exact ⟨_, whenEnabled_of_not_enabled _ e, rfl⟩
    · exact ⟨_, whenEnabled_of_enabled _ e, rfl⟩
  | abort => cases h; exact ⟨_, execAbort_eq _, rfl⟩
  | stat => cases h; exact ⟨_, execStat_eq _, rfl⟩

/-- Settles O37: what a step takes from the ports does not depend on the history, and neither does what it does
with it. -/
theorem historyIsUnread : Obligations.HistoryIsUnread := by
  intro s t log h
  unfold step
  obtain ⟨i, rest, e, h⟩ | ⟨hd, rest, e, rfl⟩ | ⟨rest, e, rfl⟩ | ⟨e, rfl⟩ := step_cases h
  · rw [e]; exact exec_with_history log h
  · rw [e]; exact ⟨_, rfl, rfl⟩
  · rw [e]; exact ⟨_, rfl, rfl⟩
  · rw [e]; exact ⟨_, rfl, rfl⟩

end Sys2Proof.Machine
end

section
/-! PROOFS of the family 20_memory.md: the packing of a byte sequence in one bit vector (R50), the one response of
every command (R59, R74), the step that runs the command next on CMD (R59, R84), and instances side by side (R64). -/

namespace Sys2Proof.Machine

/-! ### The number a byte sequence packs to (R50) -/

/-- The number whose base-256 digits are the bytes of a list, the first byte the most significant: the value that
`packed` takes. -/
def packedValue (l : List Byte) : Nat := l.foldl (fun acc b => acc * 256 + b.toNat) 0

theorem packedValue_concat (l : List Byte) (b : Byte) :
    packedValue (l ++ [b]) = packedValue l * 256 + b.toNat := by
  simp [packedValue]

/-- `n` bytes pack to a number of `8 * n` bits. -/
theorem packedValue_lt (l : List Byte) : packedValue l < 2 ^ (8 * l.length) := by
  induction l using List.reverseRecOn with
  | nil => decide
  | append_singleton l b ih =>
    have hb := b.isLt
    rw [packedValue_concat, List.length_append, List.length_singleton, Nat.mul_add, Nat.pow_add]
    omega

/-- Bytes appended at the end enter at the least significant end. -/
theorem packedValue_append (xs ys : List Byte) :
    packedValue (xs ++ ys) = packedValue xs * 2 ^ (8 * ys.length) + packedValue ys := by
  induction ys using List.reverseRecOn with
  | nil => simp [packedValue]
  | append_singleton ys b ih =>
    rw [← List.append_assoc, packedValue_concat, packedValue_concat, ih, List.length_append, List.length_singleton,
      Nat.mul_add, Nat.pow_add]
    ring

/-- The bits above the last bytes are the bytes before them. -/
theorem packedValue_append_shiftRight (xs ys : List Byte) :
    packedValue (xs ++ ys) >>> (8 * ys.length) = packedValue xs := by
  rw [packedValue_append, Nat.shiftRight_eq_div_pow, Nat.mul_comm, Nat.mul_add_div (Nat.two_pow_pos _),
    Nat.div_eq_of_lt (packedValue_lt ys), Nat.add_zero]

/-- The low bits are the last bytes. -/
theorem packedValue_append_mod (xs ys : List Byte) :
    packedValue (xs ++ ys) % 2 ^ (8 * ys.length) = packedValue ys := by
  rw [packedValue_append, Nat.mul_add_mod_self_right, Nat.mod_eq_of_lt (packedValue_lt ys)]

theorem packedValue_toList_lt {n : Nat} (x : Bytes n) : packedValue x.toList < 2 ^ (8 * n) := by
  have hlt := packedValue_lt x.toList
  rwa [Vector.length_toList] at hlt

theorem packed_toNat {n : Nat} (x : Bytes n) : (packed x).toNat = packedValue x.toList :=
  (BitVec.toNat_ofNat _ _).trans (Nat.mod_eq_of_lt (packedValue_toList_lt x))

/-- Byte `i` is the one with `n - 1 - i` bytes to its right. -/
theorem packed_byte {n : Nat} (x : Bytes n) (i : Nat) (hi : i < n) :
    (packed x).extractLsb' (8 * (n - 1 - i)) 8 = x[i] := by
  have hsplit : x.toList = (x.toList.take i ++ [x[i]]) ++ x.toList.drop (i + 1) := by
    rw [← Vector.getElem_toList (h := by simpa), List.append_assoc, List.singleton_append,
      List.getElem_cons_drop, List.take_append_drop]
  have hlen : (x.toList.drop (i + 1)).length = n - 1 - i := by simp; omega
  apply BitVec.eq_of_toNat_eq
  rw [BitVec.extractLsb'_toNat, packed_toNat, hsplit, ← hlen, packedValue_append_shiftRight, packedValue_concat]
  have hb := x[i].isLt
  omega

/-- ADVANCE shifts the first `m` bytes out at the top and brings the segment in at the bottom (R50, R91). -/
theorem packed_advance {B m : Nat} (R : Bytes B) (c : Bytes m) (h : InBlock m B) :
    packed (advance R c h) = (packed R <<< (8 * m)) ||| (packed c).setWidth (8 * B) := by
  have hc := packedValue_toList_lt c
  have hcB : packedValue c.toList < 2 ^ (8 * B) :=
    hc.trans_le (Nat.pow_le_pow_right (by decide) (Nat.mul_le_mul_left 8 h.2))
  have hdrop : packedValue R.toList % 2 ^ (8 * (B - m)) = packedValue (R.toList.drop m) := by
    simpa using packedValue_append_mod (R.toList.take m) (R.toList.drop m)
  have hB : 2 ^ (8 * B) = 2 ^ (8 * (B - m)) * 2 ^ (8 * m) := by
    rw [← Nat.pow_add, ← Nat.mul_add, Nat.sub_add_cancel h.2]
  apply BitVec.eq_of_toNat_eq
  calc (packed (advance R c h)).toNat
      = packedValue (R.toList.drop m) * 2 ^ (8 * m) + packedValue c.toList := by
        rw [packed_toNat, advance_toList, packedValue_append, Vector.length_toList]
    _ = packedValue (R.toList.drop m) <<< (8 * m) ||| packedValue c.toList := by
        rw [← Nat.shiftLeft_eq, Nat.shiftLeft_add_eq_or_of_lt hc]
    _ = (packedValue R.toList <<< (8 * m)) % 2 ^ (8 * B) ||| packedValue c.toList := by
        rw [← hdrop, Nat.shiftLeft_eq, Nat.shiftLeft_eq, hB, Nat.mul_mod_mul_right]
    _ = ((packed R <<< (8 * m)) ||| (packed c).setWidth (8 * B)).toNat := by
        rw [BitVec.toNat_or, BitVec.toNat_shiftLeft, BitVec.toNat_setWidth, packed_toNat, packed_toNat,
          Nat.mod_eq_of_lt hcB]

/-- DERIVE takes the most significant `n` bytes (R50, R98). -/
theorem packed_derive {KLEN B n : Nat} (E : Bytes KLEN → Bytes B → Bytes B) (K : Bytes KLEN) (R : Bytes B)
    (h : InBlock n B) : packed (derive E K R n h) = (packed (E K R)).extractLsb' (8 * (B - n)) (8 * n) := by
  have htop : packedValue (E K R).toList >>> (8 * (B - n)) = packedValue ((E K R).toList.take n) := by
    simpa using packedValue_append_shiftRight ((E K R).toList.take n) ((E K R).toList.drop n)
  apply BitVec.eq_of_toNat_eq
  rw [BitVec.extractLsb'_toNat, packed_toNat (E K R), htop, ← derive_toList E K R h, ← packed_toNat,
    Nat.mod_eq_of_lt (BitVec.isLt _)]

/-- Settles O21: all three clauses are about the number a sequence packs to, cut where its bytes are cut. -/
theorem packedAdvanceIsShift : Obligations.PackedAdvanceIsShift :=
  ⟨packed_byte, packed_advance, packed_derive⟩

/-! ### One response per command -/

/-- The operation a response echoes is the one in the header of its command (R65, R74). -/
theorem opField_encodeHeader_headerOf (i : Instr) : opField (encodeHeader (headerOf i)) = opOf i := by
  cases i <;> exact opField_encodeHeader _

/-- Settles O30: every outcome of a command is a rejection, `Fail()` or its own update, and each of them responds
once; only the update of SEG and of STAT has a payload. -/
theorem oneResponsePerCommand : Obligations.OneResponsePerCommand := by
  intro i s t h
  rw [opField_encodeHeader_headerOf]
  cases i with
  | start dir key iv n =>
    obtain ⟨-, rfl⟩ | ⟨-, -, rfl⟩ | ⟨c, -, rfl⟩ := execStart_cases h
    · exact ⟨_, reject_RSP _ _, rfl, fun _ => rfl, nofun⟩
    · exact ⟨_, fail_RSP _ _, rfl, fun _ => rfl, nofun⟩
    · exact ⟨_, respond_RSP _ _ _ _, rfl, fun _ => rfl, fun _ => rfl⟩
  | seg data =>
    obtain ⟨-, rfl⟩ | ⟨S, -, -, -, rfl⟩ | ⟨S, R, K, dir, c, -, -, -, -, -, -, rfl⟩ := execSeg_cases h
    · exact ⟨_, reject_RSP _ _, rfl, fun _ => rfl, nofun⟩
    · exact ⟨_, fail_RSP _ _, rfl, fun _ => rfl, nofun⟩
    · exact ⟨_, processSegment_RSP _ _ _ _ _ _ _, rfl, fun hst => absurd rfl hst,
        fun _ => segmentOutput_length _ _ _ _ _⟩
  | finish =>
    obtain ⟨-, rfl⟩ | ⟨-, rfl⟩ := execFinish_cases h
    · exact ⟨_, reject_RSP _ _, rfl, fun _ => rfl, nofun⟩
    · exact ⟨_, respond_RSP _ _ _ _, rfl, fun _ => rfl, fun _ => rfl⟩
  | abort => cases h; exact ⟨_, respond_RSP _ _ _ _, rfl, fun _ => rfl, fun _ => rfl⟩
  | stat => cases h; exact ⟨_, respond_RSP _ _ _ _, rfl, fun hst => absurd rfl hst, fun _ => rfl⟩

/-! ### Several instances -/

/-- A step of an instance is a step of it. -/
theorem getElem?_stepInstance_same (k : Nat) (ms : List (Host.Outcome State Fault Refusal)) :
    (stepInstance k ms)[k]? = ms[k]?.map stepOutcome := List.getElem?_modify_eq _ _ _

/-- A step of another instance does not touch this one (R64). -/
theorem getElem?_stepInstance_of_ne {j k : Nat} (h : j ≠ k) (ms : List (Host.Outcome State Fault Refusal)) :
    (stepInstance j ms)[k]? = ms[k]? := List.getElem?_modify_ne _ _ h

/-- Settles O42, by induction on the schedule: the first step reaches the instance it names and no other. -/
theorem instancesAreIndependent : Obligations.InstancesAreIndependent := by
  intro schedule
  induction schedule with
  | nil => intro ms k; simp [runSchedule]
  | cons j schedule ih =>
    intro ms k
    have hrun : runSchedule (j :: schedule) ms = runSchedule schedule (stepInstance j ms) := rfl
    rw [hrun, ih]
    by_cases hjk : j = k
    · rw [hjk, getElem?_stepInstance_same, Option.map_map, List.count_cons_self, Function.iterate_succ]
    · rw [getElem?_stepInstance_of_ne hjk, List.count_cons_of_ne hjk]

/-! ### The command next on CMD -/

/-- The header of a well-formed command announces exactly its payload (R72). -/
theorem payloadLength_headerOf {i : Instr} (hw : i.wellFormed = true) :
    (headerOf i).payloadLength = (payloadOf i).length := by
  have hsize : (encode i).length = 4 + (headerOf i).payloadLength := by
    cases i with
    | start dir key iv n => exact Laws.EncodedSize.start dir key iv n hw
    | seg data => exact Laws.EncodedSize.seg data hw
    | finish => rfl
    | abort => rfl
    | stat => rfl
  have hlen : (encode i).length = 4 + (payloadOf i).length := List.length_append
  omega

/-- The header and the payload of a well-formed command give the command back (R73). -/
theorem attachPayload_headerOf_payloadOf {i : Instr} (hw : i.wellFormed = true) :
    attachPayload (headerOf i) (payloadOf i) = i := by
  cases i with
  | start dir key iv n =>
    obtain ⟨hkey, hiv⟩ : key.length ≤ 255 ∧ iv.length ≤ 255 := by
      simpa [Instr.wellFormed, fitsLengthField] using hw
    simp [headerOf, payloadOf, attachPayload, Nat.mod_eq_of_lt (Nat.lt_succ_of_le hkey),
      Nat.mod_eq_of_lt (Nat.lt_succ_of_le hiv)]
  | seg data =>
    have hdata : data.length ≤ 255 := by simpa [Instr.wellFormed, fitsLengthField] using hw
    simp [headerOf, payloadOf, attachPayload, Nat.mod_eq_of_lt (Nat.lt_succ_of_le hdata)]
  | finish => rfl
  | abort => rfl
  | stat => rfl

/-- The decoder reads a well-formed command back from its bytes and leaves the bytes after it (R84). -/
theorem decode_encode_append {i : Instr} (hw : i.wellFormed = true) (tail : List Byte) :
    decode (encode i ++ tail) = .instr i tail := by
  rw [encode, List.append_assoc, decode_wordBytes_append, decodeHeader_encodeHeader]
  simp only [payloadLength_headerOf hw, List.take_left, List.drop_left, attachPayload_headerOf_payloadOf hw]
  exact if_neg (by simp)

/-- The CORE takes the bytes of a well-formed command from its port and nothing after them. -/
theorem fetch_encode_append {i : Instr} (hw : i.wellFormed = true) (rest : List HostEvent) :
    fetch (sendBytes (encode i) ++ rest) = .command i rest := by
  rw [fetch_sendBytes_append, decode_encode_append hw]
  exact congrArg (Fetched.command i) (sendBytes_splitAtReset rest)

/-- Settles O38: the fetch finds that command with the events after it, and the step executes it. -/
theorem stepRunsDecodedCommand : Obligations.StepRunsDecodedCommand := by
  intro s i rest hw hCMD
  rw [step, hCMD, fetch_encode_append hw rest]
  rfl

end Sys2Proof.Machine
end

section
/-! PROOFS of the family 30_encoding.md: decoding and encoding are inverse to each other (R65, R72, R73), the opcode
map and the reserved headers (R77 to R79), the layouts of headers, responses and STATUS (R67, R74 to R76), the text of
R82, and the step that answers a header that does not decode. -/

namespace Sys2Proof

/-! ### What a header that decodes looks like -/

/-- The one reason for which a header is refused (R78, R79). -/
theorem why_of_decodeHeader_error {h : Word} {why : IllegalHeader} (e : decodeHeader h = .error why) :
    why = whyIllegal h := by
  unfold decodeHeader at e
  split_ifs at e
  exact (Except.error.inj e).symm

/-- A word that is the header of no fields is refused, and no payload follows it (R72, R84). -/
theorem refused_of_no_header {h : Word} (hne : ∀ hd, encodeHeader hd ≠ h) :
    decodeHeader h = .error (whyIllegal h) ∧ payloadLength h = 0 := by
  cases e : decodeHeader h with
  | ok hd => exact absurd (encodeHeader_of_decodeHeader e) (hne hd)
  | error why => exact ⟨congrArg _ (why_of_decodeHeader_error e), by rw [payloadLength, e]⟩

theorem payloadLength_encodeHeader (hd : Header) : payloadLength (encodeHeader hd) = hd.payloadLength := by
  rw [payloadLength, decodeHeader_encodeHeader]

/-! ### Payloads (R72, R73) -/

/-- Operands cut from a payload of the announced length fit their length fields. -/
theorem wellFormed_attachPayload (hd : Header) (p : List Byte) : (attachPayload hd p).wellFormed = true := by
  cases hd with
  | start dir keyLen ivLen segSize =>
    have hk := keyLen.isLt
    have hv := ivLen.isLt
    simp only [attachPayload, Instr.wellFormed, fitsLengthField, Bool.and_eq_true, decide_eq_true_eq,
      List.length_take]
    omega
  | seg len =>
    have hlen := len.isLt
    simp only [attachPayload, Instr.wellFormed, fitsLengthField, decide_eq_true_eq, List.length_take]
    omega
  | finish => rfl
  | abort => rfl
  | stat => rfl

/-- A command put together from a header and the payload it announces has that header. -/
theorem headerOf_attachPayload {hd : Header} {p : List Byte} (hp : p.length = hd.payloadLength) :
    headerOf (attachPayload hd p) = hd := by
  cases hd with
  | start dir keyLen ivLen segSize =>
    simp [attachPayload, headerOf, hp, Header.payloadLength]
  | seg len => simp [attachPayload, headerOf, hp, Header.payloadLength]
  | finish => rfl
  | abort => rfl
  | stat => rfl

/-- A command put together from a header and the payload it announces has that payload. -/
theorem payloadOf_attachPayload {hd : Header} {p : List Byte} (hp : p.length = hd.payloadLength) :
    payloadOf (attachPayload hd p) = p := by
  cases hd with
  | start dir keyLen ivLen segSize =>
    have hiv : (p.drop keyLen.toNat).length = ivLen.toNat := by simp [hp, Header.payloadLength]
    rw [attachPayload, payloadOf, List.take_of_length_le hiv.le, List.take_append_drop]
  | seg len => exact List.take_of_length_le hp.le
  | finish => exact (List.eq_nil_of_length_eq_zero hp).symm
  | abort => exact (List.eq_nil_of_length_eq_zero hp).symm
  | stat => exact (List.eq_nil_of_length_eq_zero hp).symm

/-- A header and the payload it announces are the encoding of the command put together from them (R65). -/
theorem encode_attachPayload {hd : Header} {p : List Byte} (hp : p.length = hd.payloadLength) :
    encode (attachPayload hd p) = wordBytes (encodeHeader hd) ++ p := by
  rw [encode, headerOf_attachPayload hp, payloadOf_attachPayload hp]

/-- What a stream that decodes as a command consists of. -/
theorem decode_eq_instr {bs rest : List Byte} {i : Instr} (h : decode bs = .instr i rest) :
    ∃ hd p, p.length = hd.payloadLength ∧ i = attachPayload hd p ∧
      bs = wordBytes (encodeHeader hd) ++ (p ++ rest) := by
  obtain ⟨w, tail, rfl⟩ := decode_needs_header (bs := bs) (by rw [h]; nofun)
  rw [decode_wordBytes_append] at h
  split at h
  next why e => cases h
  next hd e =>
    split at h
    next hlt => cases h
    next hge =>
      cases h
      refine ⟨hd, tail.take hd.payloadLength, ?_, rfl, ?_⟩
      · exact List.length_take_of_le (Nat.le_of_not_lt hge)
      · rw [encodeHeader_of_decodeHeader e, List.take_append_drop]

/-- Settles O7: the header of a well-formed command decodes to itself and announces exactly its payload. -/
theorem decodeOfEncode : Obligations.DecodeOfEncode := fun _ rest hw => Machine.decode_encode_append hw rest

/-- Settles O8: the command is put together from a header and the payload it announces, and those are its encoding. -/
theorem encodeOfDecode : Obligations.EncodeOfDecode := by
  intro i bs rest h
  obtain ⟨hd, p, hp, rfl, rfl⟩ := decode_eq_instr h
  exact ⟨wellFormed_attachPayload hd p, by rw [encode_attachPayload hp, List.append_assoc]⟩

/-! ### The opcode map (R77) -/

/-- The row of the opcode map for a header's operation. -/
def rowOf : Header → OpcodeRow
  | .start _ _ _ _ => opcodeMap[0]
  | .seg _ => opcodeMap[1]
  | .finish => opcodeMap[2]
  | .abort => opcodeMap[3]
  | .stat => opcodeMap[4]

theorem rowOf_mem (hd : Header) : rowOf hd ∈ opcodeMap := by
  cases hd <;> exact List.getElem_mem _

theorem mnemonic_rowOf_headerOf (i : Instr) : (rowOf (headerOf i)).mnemonic = mnemonicOf i := by
  cases i <;> rfl

theorem selects_iff (r : OpcodeRow) (h : Word) : r.selects h = true ↔ h &&& r.mask = r.pattern :=
  decide_eq_true_iff

/-- A header of an operation selects the row of that operation. -/
theorem rowOf_selects_encodeHeader (hd : Header) : (rowOf hd).selects (encodeHeader hd) = true := by
  rw [selects_iff]
  cases hd with
  | start dir keyLen ivLen segSize =>
    obtain ⟨-, hres, -⟩ := startHeader_fields dir keyLen ivLen segSize
    exact (startMask_iff _).mpr ⟨opField_encodeHeader _, hres⟩
  | seg len => exact (segMask_iff _).mpr ⟨opField_encodeHeader _, (segHeader_fields len).1⟩
  | finish => rfl
  | abort => rfl
  | stat => rfl

/-- A header that selects a row is the header of some fields. -/
theorem exists_header_of_selects {r : OpcodeRow} (hr : r ∈ opcodeMap) {h : Word} (hs : r.selects h = true) :
    ∃ hd, encodeHeader hd = h := by
  rw [selects_iff] at hs
  have hfull : h &&& 0xFFFFFFFF#32 = h := BitVec.and_allOnes
  simp only [opcodeMap, List.mem_cons, List.not_mem_nil, or_false] at hr
  obtain rfl | rfl | rfl | rfl | rfl := hr
  · obtain ⟨hop, hres⟩ := (startMask_iff h).mp hs
    exact ⟨_, startHeader_of_fields h hop hres⟩
  · obtain ⟨hop, hres⟩ := (segMask_iff h).mp hs
    exact ⟨_, segHeader_of_fields h hop hres⟩
  · exact ⟨.finish, hs.symm.trans hfull⟩
  · exact ⟨.abort, hs.symm.trans hfull⟩
  · exact ⟨.stat, hs.symm.trans hfull⟩

/-- Every mask holds the whole operation field, so a row fixes the operation of the headers that select it. -/
theorem opField_of_selects {r : OpcodeRow} (hr : r ∈ opcodeMap) {h : Word} (hs : r.selects h = true) :
    opField h = opField r.pattern := by
  have hmask : ∀ r ∈ opcodeMap, opField r.mask = BitVec.allOnes 4 := by decide
  rw [← (selects_iff r h).mp hs, opField, opField, BitVec.extractLsb'_and, ← opField, ← opField, hmask r hr,
    BitVec.and_allOnes]

/-- No two rows of the opcode map have the same operation. -/
theorem row_eq_of_opField_eq : ∀ r ∈ opcodeMap, ∀ r' ∈ opcodeMap,
    opField r.pattern = opField r'.pattern → r = r' := by decide

/-- Settles O10: a header decodes when it is the header of some fields, which is when it selects their row, and two
rows that one header selects agree in the operation. -/
theorem decodingFollowsOpcodeMap : Obligations.DecodingFollowsOpcodeMap := by
  refine ⟨fun h => ⟨?_, ?_⟩, ?_, fun i => ?_⟩
  · rintro ⟨hd, hok⟩
    rw [← encodeHeader_of_decodeHeader hok]
    exact ⟨rowOf hd, rowOf_mem hd, rowOf_selects_encodeHeader hd⟩
  · rintro ⟨r, hr, hs⟩
    obtain ⟨hd, rfl⟩ := exists_header_of_selects hr hs
    exact ⟨hd, decodeHeader_encodeHeader hd⟩
  · intro h r hr r' hr' hs hs'
    exact row_eq_of_opField_eq r hr r' hr' ((opField_of_selects hr hs).symm.trans (opField_of_selects hr' hs'))
  · exact ⟨rowOf (headerOf i), rowOf_mem _, mnemonic_rowOf_headerOf i, rowOf_selects_encodeHeader _⟩

/-! ### Reserved opcodes and reserved bits (R78, R79) -/

/-- The operation of a header that decodes is one of the five. -/
theorem opField_encodeHeader_range (hd : Header) :
    1 ≤ (opField (encodeHeader hd)).toNat ∧ (opField (encodeHeader hd)).toNat ≤ 5 := by
  rw [opField_encodeHeader]
  cases hd <;> simp

/-- The header has one of the five operations and a 1 in a bit that its format reserves (R79). -/
def ReservedBitSet (h : Word) : Prop :=
  (opField h = 1#4 ∧ h.extractLsb' 24 3 ≠ 0#3) ∨ (opField h = 2#4 ∧ h.extractLsb' 8 20 ≠ 0#20) ∨
    ((opField h = 3#4 ∨ opField h = 4#4 ∨ opField h = 5#4) ∧ h.extractLsb' 0 28 ≠ 0#28)

theorem opField_range_of_reservedBitSet {h : Word} (hr : ReservedBitSet h) :
    1 ≤ (opField h).toNat ∧ (opField h).toNat ≤ 5 := by
  obtain ⟨hop, -⟩ | ⟨hop, -⟩ | ⟨hop | hop | hop, -⟩ := hr <;> rw [hop] <;> decide

/-- A header that decodes has no reserved bit set. -/
theorem not_reservedBitSet_encodeHeader (hd : Header) : ¬ ReservedBitSet (encodeHeader hd) := by
  rw [ReservedBitSet, opField_encodeHeader]
  cases hd with
  | start dir keyLen ivLen segSize =>
    obtain ⟨-, hres, -⟩ := startHeader_fields dir keyLen ivLen segSize
    simp [hres]
  | seg len => simp [(segHeader_fields len).1]
  | finish => decide
  | abort => decide
  | stat => decide

/-- Settles O11: no header of some fields is of either kind, so the decoder refuses it, and for the reason that its
operation tells. -/
theorem reservedHeadersRefused : Obligations.ReservedHeadersRefused := by
  refine ⟨fun h hop => ?_, fun h hr => ?_⟩
  · have hout : ¬ (1 ≤ (opField h).toNat ∧ (opField h).toNat ≤ 5) := by omega
    have hrefused := refused_of_no_header fun hd (he : _ = h) => hout (he ▸ opField_encodeHeader_range hd)
    rwa [whyIllegal, if_neg hout] at hrefused
  · have hrefused := refused_of_no_header fun hd (he : _ = h) => not_reservedBitSet_encodeHeader hd (he ▸ hr)
    rwa [whyIllegal, if_pos (opField_range_of_reservedBitSet hr)] at hrefused

/-! ### The layout of headers (R67) -/

/-- Settles O6: eight fixed words, which the decoder is run on. -/
theorem exampleHeadersDecode : Obligations.ExampleHeadersDecode := by
  refine ⟨?_, ?_, ?_, ?_, ?_, ?_, ?_, ?_⟩ <;> decide

/-- Settles O9, from the fields read back and the header that decodes to itself. -/
theorem startHeaderLayout : Obligations.StartHeaderLayout := by
  intro dir keyLen ivLen segSize
  obtain ⟨hdir, hres, hkey, hiv, hseg⟩ := startHeader_fields dir keyLen ivLen segSize
  refine ⟨opField_encodeHeader _, ?_, hres, hkey, hiv, hseg, payloadLength_encodeHeader _⟩
  rw [hdir]
  cases dir <;> rfl

end Sys2Proof

namespace Sys2Proof.Machine

/-! ### Responses (R74, R75) -/

/-- Every field of a response header can be read back from its bits (R74). -/
theorem responseHeader_fields (r : Response) :
    opField (responseHeader r) = r.op ∧ (responseHeader r).extractLsb' 10 18 = 0#18 ∧
    (responseHeader r).extractLsb' 8 2 = statusCode r.status ∧
    (responseHeader r).extractLsb' 0 8 = BitVec.ofNat 8 r.data.length := by
  refine ⟨?_, ?_, ?_, ?_⟩ <;> refine extract_ext fun i hi => ?_ <;>
    simp only [opField, responseHeader, BitVec.getLsbD_extractLsb', BitVec.getLsbD_append] <;> grind

/-- The length field of a response that fits it is the length of its payload. -/
theorem responseHeader_dlen {r : Response} (hr : r.data.length ≤ 255) :
    ((responseHeader r).extractLsb' 0 8).toNat = r.data.length := by
  obtain ⟨-, -, -, hlen⟩ := responseHeader_fields r
  rw [hlen, BitVec.toNat_ofNat, Nat.mod_eq_of_lt (Nat.lt_succ_of_le hr)]

@[simp] theorem statusOfCode_statusCode (st : Status) : statusOfCode (statusCode st) = some st := by
  cases st <;> rfl

/-- What a host reads from a stream that begins with a response header. -/
theorem decodeResponse_wordBytes_append (q : Word) (tail : List Byte) :
    decodeResponse (wordBytes q ++ tail) =
      if q.extractLsb' 10 18 = 0#18 ∧ (q.extractLsb' 0 8).toNat ≤ tail.length then
        (statusOfCode (q.extractLsb' 8 2)).map fun st =>
          (⟨opField q, st, tail.take (q.extractLsb' 0 8).toNat⟩, tail.drop (q.extractLsb' 0 8).toNat)
      else none := by
  simp only [wordBytes, List.cons_append, List.nil_append, decodeResponse, wordOfBytes_of_extracts]

/-- Settles O12: the fields read back, the status as its code and the length within its field. -/
theorem responseHeaderLayout : Obligations.ResponseHeaderLayout := by
  intro r hr
  obtain ⟨hop, hres, hst, -⟩ := responseHeader_fields r
  refine ⟨hop, hres, ?_, responseHeader_dlen hr⟩
  rw [hst]
  cases r.status <;> rfl

/-- Settles O13: the host reads each field of the header, and the length field says where the payload ends. -/
theorem responseReadBack : Obligations.ResponseReadBack := by
  intro r rest hr
  obtain ⟨hop, hres, hst, -⟩ := responseHeader_fields r
  rw [responseBytes, List.append_assoc, decodeResponse_wordBytes_append, responseHeader_dlen hr, hop, hst,
    if_pos ⟨hres, by simp⟩, statusOfCode_statusCode, List.take_left, List.drop_left]
  rfl

/-! ### STATUS (R76) -/

/-- Every field of STATUS can be read back from its bits (R76). -/
theorem statusWord_fields (s : State) :
    (statusWord s).extractLsb' 0 3 = fsmCode s.fsm ∧ (statusWord s).extractLsb' 3 1 = errBit s.ERR ∧
    (statusWord s).extractLsb' 4 1 = dirBit s.DIR ∧ (statusWord s).extractLsb' 5 1 = shortBit s.SHORT ∧
    (statusWord s).extractLsb' 6 2 = 0#2 ∧ (statusWord s).extractLsb' 8 8 = segField s.S ∧
    (statusWord s).extractLsb' 16 16 = 0#16 := by
  refine ⟨?_, ?_, ?_, ?_, ?_, ?_, ?_⟩ <;> refine extract_ext fun i hi => ?_ <;>
    simp only [statusWord, BitVec.getLsbD_extractLsb', BitVec.getLsbD_append] <;> grind

theorem errBit_eq_one_iff (e : ErrKind) : errBit e = 1#1 ↔ e = .invalidLength := by
  cases e <;> decide

theorem dirBit_eq_one_iff (d : Option Direction) : dirBit d = 1#1 ↔ d = some .decrypt := by
  obtain _ | _ | _ := d <;> decide

theorem shortBit_eq_one_iff (short : Bool) : shortBit short = 1#1 ↔ short = true := by
  cases short <;> decide

/-- A segment size is at most the block size, so it fits its field of STATUS (R5, R26). -/
theorem segField_some_toNat (S : SegSize) : (segField (some S)).toNat = S.val :=
  (BitVec.toNat_ofNat _ _).trans
    (Nat.mod_eq_of_lt (Nat.lt_succ_of_le (S.le_blockSize.trans Config.blockSize_le)))

/-- Settles O14: the fields read back, each as what its code says of the state item. -/
theorem statusWordLayout : Obligations.StatusWordLayout := by
  intro s
  obtain ⟨hfsm, herr, hdir, hshort, hres, hseg, htop⟩ := statusWord_fields s
  rw [hfsm, herr, hdir, hshort, hseg]
  refine ⟨?_, errBit_eq_one_iff _, dirBit_eq_one_iff _, shortBit_eq_one_iff _, hres, ?_, htop⟩
  · cases s.fsm <;> rfl
  · cases s.S with
    | none => rfl
    | some S => exact segField_some_toNat S

/-! ### The text of R82 -/

/-- Settles O15: one fixed text, which the reader and the encoder are run on. -/
theorem assemblyExample : Obligations.AssemblyExample := ⟨by decide, by decide⟩

/-! ### A header that does not decode -/

/-- The CORE takes the four bytes of a header that does not decode and nothing after them (R72). -/
theorem fetch_illegal_append {h : Word} {why : IllegalHeader} (he : decodeHeader h = .error why)
    (rest : List HostEvent) : fetch (sendBytes (wordBytes h) ++ rest) = .illegal h rest := by
  rw [fetch_sendBytes_append, decode_wordBytes_append, he]
  exact congrArg (Fetched.illegal h) (sendBytes_splitAtReset rest)

/-- Settles O39: the fetch finds the header with the events after it, and the step rejects it with its operation. -/
theorem stepRejectsIllegalHeader : Obligations.StepRejectsIllegalHeader := by
  intro s b3 b2 b1 b0 why rest he hCMD
  rw [← wordBytes_wordOfBytes b3 b2 b1 b0] at hCMD
  rw [step, hCMD, fetch_illegal_append he, ← opField_wordOfBytes b3 b2 b1 b0]
  rfl

end Sys2Proof.Machine
end

section
/-! PROOFS of the family 40_feedback_register.md: where ADVANCE leaves the old bytes and the emitted segment (R91), and
the segment of a whole block (R123). -/

namespace Sys2Proof.Machine

/-! ### ADVANCE byte by byte (R91) -/

/-- The bytes kept move `n` places to the front. -/
theorem advance_getElem_left {B n : Nat} (R : Bytes B) (x : Bytes n) (h : InBlock n B) {i : Nat} (hl : i < B - n) :
    (advance R x h)[i]'(by omega) = R[i + n]'(by omega) := by
  rw [← Vector.getElem_toList (h := by rw [Vector.length_toList]; omega)]
  simp only [advance_toList]
  rw [List.getElem_append_left (by simpa using hl), List.getElem_drop, Vector.getElem_toList]
  simp only [Nat.add_comm]

/-- Behind the bytes kept comes the emitted segment. -/
theorem advance_getElem_right {B n : Nat} (R : Bytes B) (x : Bytes n) (h : InBlock n B) {i : Nat} (hi : i < B)
    (hr : B - n ≤ i) : (advance R x h)[i] = x[i - (B - n)]'(by omega) := by
  rw [← Vector.getElem_toList (h := by rwa [Vector.length_toList])]
  simp only [advance_toList]
  rw [List.getElem_append_right (by simpa using hr), Vector.getElem_toList]
  simp only [List.length_drop, Vector.length_toList]

/-- Settles O16: the index falls among the bytes kept or in the segment behind them. -/
theorem advanceByteByByte : Obligations.AdvanceByteByByte := by
  intro B n R x h i hi
  split
  case isTrue hl => exact advance_getElem_left R x h hl
  case isFalse hl => exact advance_getElem_right R x h hi (Nat.le_of_not_lt hl)

/-- Settles O17: dropping a whole block keeps no old byte. -/
theorem advanceByWholeBlock : Obligations.AdvanceByWholeBlock := by
  intro B R c h
  have hdrop : R.toList.drop B = [] := List.drop_eq_nil_of_le (Vector.length_toList).le
  apply bytes_ext_toList
  rw [advance_toList, hdrop, List.nil_append]

end Sys2Proof.Machine
end

section
/-! PROOFS of the family 41_keystream_generator.md: the bytes DERIVE keeps of the block the primitive answers (R98),
and the commands that ask the primitive for one (R102). -/

namespace Sys2Proof.Machine

/-- Settles O18: the first `n` bytes keep their places. -/
theorem deriveTakesFirstBytes : Obligations.DeriveTakesFirstBytes := by
  intro KLEN B E K R n h i hi
  rw [← Vector.getElem_toList (h := by rwa [Vector.length_toList])]
  simp only [derive_toList]
  rw [List.getElem_take, Vector.getElem_toList]

/-- The status of the last response is the one just sent. -/
theorem lastStatus_respond (op : BitVec 4) (st : Status) (d : List Byte) (s : State) :
    (respond op st d s).RSP.getLast?.map Response.status = some st := by
  rw [respond_RSP, List.getLast?_concat, Option.map_some]

/-- A rejected command is not answered with Ok. -/
theorem lastStatus_reject_ne_ok (op : BitVec 4) (s : State) :
    (reject op s).RSP.getLast?.map Response.status ≠ some .ok :=
  (lastStatus_respond op .rejected [] s).trans_ne (by decide)

/-- A command that fails is not answered with Ok. -/
theorem lastStatus_fail_ne_ok (op : BitVec 4) (s : State) :
    (fail op s).RSP.getLast?.map Response.status ≠ some .ok :=
  (lastStatus_respond op .invalidLength [] _).trans_ne (by decide)

/-- Settles O31: of the outcomes of the commands only the update of SEG makes a request, and it is the only outcome of
SEG whose response is Ok. -/
theorem onePrimRequestPerSegment : Obligations.OnePrimRequestPerSegment := by
  intro i s t h
  cases i with
  | start dir key iv n =>
    obtain ⟨-, rfl⟩ | ⟨-, -, rfl⟩ | ⟨c, -, rfl⟩ := execStart_cases h <;> exact .inl ⟨rfl, nofun⟩
  | seg data =>
    obtain ⟨-, rfl⟩ | ⟨S, -, -, -, rfl⟩ | ⟨S, R, K, dir, c, -, -, hR, hK, -, -, rfl⟩ := execSeg_cases h
    · exact .inl ⟨reject_PLOG _ _, fun _ _ => lastStatus_reject_ne_ok _ _⟩
    · exact .inl ⟨fail_PLOG _ _, fun _ _ => lastStatus_fail_ne_ok _ _⟩
    · exact .inr ⟨data, K, R, rfl, hK, hR, lastStatus_respond _ _ _ _, processSegment_PLOG _ _ _ _ _ _ _⟩
  | finish => obtain ⟨-, rfl⟩ | ⟨-, rfl⟩ := execFinish_cases h <;> exact .inl ⟨rfl, nofun⟩
  | abort => cases h; exact .inl ⟨rfl, nofun⟩
  | stat => cases h; exact .inl ⟨rfl, nofun⟩

end Sys2Proof.Machine
end

section
/-! PROOFS of the family 42_xor_combiner.md: COMBINE byte by byte (R106), and the laws of exclusive or it takes over
from the single bytes (R108). -/

namespace Sys2Proof.Machine

variable {n : Nat}

@[simp] theorem combine_getElem (x ks : Bytes n) {i : Nat} (hi : i < n) :
    (combine x ks)[i] = x[i] ^^^ ks[i] := by
  rw [← Vector.getElem_toList (h := by rwa [Vector.length_toList])]
  simp only [combine_toList]
  rw [List.getElem_zipWith, Vector.getElem_toList, Vector.getElem_toList]

/-- Settles O19: the byte at each index, read from the list of the result. -/
theorem combineByteByByte : Obligations.CombineByteByByte :=
  fun x ks _ hi => combine_getElem x ks hi

theorem combine_comm (x y : Bytes n) : combine x y = combine y x := by
  ext1 i hi
  rw [combine_getElem, combine_getElem, BitVec.xor_comm]

theorem combine_assoc (x y z : Bytes n) : combine (combine x y) z = combine x (combine y z) := by
  ext1 i hi
  simp only [combine_getElem, BitVec.xor_assoc]

@[simp] theorem combine_zero (x : Bytes n) : combine x (Vector.replicate n 0) = x := by
  ext1 i hi
  rw [combine_getElem, Vector.getElem_replicate]
  exact BitVec.xor_zero

@[simp] theorem combine_self (x : Bytes n) : combine x x = Vector.replicate n 0 := by
  ext1 i hi
  rw [combine_getElem, Vector.getElem_replicate]
  exact BitVec.xor_self

/-- The law by which decryption inverts encryption follows from the other laws (R108). -/
@[simp] theorem combine_combine_cancel (x ks : Bytes n) : combine (combine x ks) ks = x := by
  rw [combine_assoc, combine_self, combine_zero]

/-- Settles O20: four laws hold at each byte, and the last follows from them. -/
theorem combineLaws : Obligations.CombineLaws := by
  intro n x y z
  exact ⟨combine_comm x y, combine_assoc x y z, combine_zero x, combine_self x, combine_combine_cancel x y⟩

end Sys2Proof.Machine
end

section
/-! PROOFS of the family 43_transformer_commands.md: the enablement table (R112, R119), what each command leaves in
every state (R113 to R117), the transitions of `fsm` (R118), the flag SHORT (R124), empty input (R122), and the
accumulator of a live invocation as the transform of what the host presented (R114, R176, R180). -/

namespace Sys2Proof.Machine

/-! ### The rows of the enablement table (R112) -/

section
variable {s : State}

theorem start_enabled (dir : Direction) (key iv : List Byte) (n : Byte)
    (h : s.fsm = .idle ∨ s.fsm = .done ∨ s.fsm = .failed) : enabled (.start dir key iv n) s.fsm = true := by
  rw [enabled_start, (not_live_iff s).mpr h, Bool.not_false]

theorem start_not_enabled (dir : Direction) (key iv : List Byte) (n : Byte)
    (h : s.fsm = .ready ∨ s.fsm = .processing) : enabled (.start dir key iv n) s.fsm = false := by
  rw [enabled_start, (live_iff s).mpr h, Bool.not_true]

theorem seg_enabled (data : List Byte) (h : s.fsm = .ready ∨ s.fsm = .processing) :
    enabled (.seg data) s.fsm = true := (enabled_seg data s).trans ((live_iff s).mpr h)

theorem seg_not_enabled (data : List Byte) (h : s.fsm = .idle ∨ s.fsm = .done ∨ s.fsm = .failed) :
    enabled (.seg data) s.fsm = false := (enabled_seg data s).trans ((not_live_iff s).mpr h)

theorem finish_enabled (h : s.fsm = .ready ∨ s.fsm = .processing) : enabled .finish s.fsm = true :=
  (enabled_finish s).trans ((live_iff s).mpr h)

theorem finish_not_enabled (h : s.fsm = .idle ∨ s.fsm = .done ∨ s.fsm = .failed) :
    enabled .finish s.fsm = false := (enabled_finish s).trans ((not_live_iff s).mpr h)

end

/-- Every command goes through the gate of the enablement table (R112, R119). -/
theorem exec_of_not_enabled {i : Instr} {s : State} (h : enabled i s.fsm = false) :
    exec i s = .next (reject (opOf i) s) := by
  cases i <;> exact whenEnabled_of_not_enabled _ h

/-- A command that ends in OK or InvalidLength is not answered Rejected. -/
theorem lastStatus_respond_ne_rejected {op : BitVec 4} {st : Status} {d : List Byte} {s : State}
    (hst : st ≠ .rejected) : (respond op st d s).RSP.getLast?.map Response.status ≠ some .rejected :=
  (lastStatus_respond op st d s).trans_ne fun heq => hst (Option.some.inj heq)

/-- The last response of an executed command is not Rejected: it is InvalidLength from `Fail()` and OK otherwise. -/
theorem lastStatus_ne_rejected {i : Instr} {s t : State} (e : enabled i s.fsm = true) (h : exec i s = .next t) :
    t.RSP.getLast?.map Response.status ≠ some .rejected := by
  cases i with
  | start dir key iv n =>
    obtain ⟨ne, -⟩ | ⟨-, -, rfl⟩ | ⟨c, -, rfl⟩ := execStart_cases h
    · exact absurd e (Bool.eq_false_iff.mp ne)
    · exact lastStatus_respond_ne_rejected nofun
    · exact lastStatus_respond_ne_rejected nofun
  | seg data =>
    obtain ⟨ne, -⟩ | ⟨S, -, -, -, rfl⟩ | ⟨S, R, K, dir, c, -, -, -, -, -, -, rfl⟩ := execSeg_cases h
    · exact absurd e (Bool.eq_false_iff.mp ne)
    · exact lastStatus_respond_ne_rejected nofun
    · exact lastStatus_respond_ne_rejected nofun
  | finish =>
    obtain ⟨ne, -⟩ | ⟨-, rfl⟩ := execFinish_cases h
    · exact absurd e (Bool.eq_false_iff.mp ne)
    · exact lastStatus_respond_ne_rejected nofun
  | abort => cases h; exact lastStatus_respond_ne_rejected nofun
  | stat => cases h; exact lastStatus_respond_ne_rejected nofun

/-! ### The stream of a live invocation (R114, R176, R180)

The proof of O46 reads the run of SEGs backwards: an invocation that is live at the end was live at each of them, so
each processed its segment, and only the last can have been short. -/

/-- A sequence of commands that reaches a state takes its first command and runs the rest from where that led. -/
theorem execAll_cons_next {i : Instr} {is : List Instr} {s t : State} (h : execAll (i :: is) s = .next t) :
    ∃ u, exec i s = .next u ∧ execAll is u = .next t := by
  rw [execAll] at h
  split at h
  next u e => exact ⟨u, e, h⟩
  next => cases h
  next => cases h

/-- A SEG after which an invocation is live was executed in a live invocation, with its segment in contract. -/
theorem execSeg_to_live {data : List Byte} {s t : State} (h : execSeg data s = .next t) (hl : t.live = true) :
    s.live = true ∧ ∃ S R K dir, ∃ c : InBlock data.length Config.blockSize,
      s.S = some S ∧ s.R = some R ∧ s.K = some K ∧ s.DIR = some dir ∧ SegInContract data S s.SHORT ∧
      t = processSegment data S R K dir s c := by
  obtain ⟨e, rfl⟩ | ⟨S, -, -, -, rfl⟩ | ⟨S, R, K, dir, c, e, hS, hR, hK, hD, hc, rfl⟩ := execSeg_cases h
  · rw [enabled_seg] at e
    exact absurd (hl : s.live = true) (Bool.eq_false_iff.mp e)
  · cases hl
  · exact ⟨enabled_seg data s ▸ e, S, R, K, dir, c, hS, hR, hK, hD, hc, rfl⟩

/-- No SEG makes an invocation live that is not. -/
theorem live_of_execAll_segs {segs : List (List Byte)} {s t : State}
    (h : execAll (segs.map .seg) s = .next t) (hl : t.live = true) : s.live = true := by
  induction segs generalizing s with
  | nil => cases h; exact hl
  | cons data segs ih =>
    obtain ⟨u, hu, h⟩ := execAll_cons_next h
    exact (execSeg_to_live hu (ih h)).1

/-- After a short segment no further SEG leaves the invocation live (R152). -/
theorem segs_eq_nil_of_short {segs : List (List Byte)} {s t : State} (hshort : s.SHORT = true)
    (h : execAll (segs.map .seg) s = .next t) (hl : t.live = true) : segs = [] := by
  cases segs with
  | nil => rfl
  | cons data segs =>
    obtain ⟨u, hu, h⟩ := execAll_cons_next h
    obtain ⟨-, S, R, K, dir, c, -, -, -, -, ⟨-, hnot⟩, -⟩ := execSeg_to_live hu (live_of_execAll_segs h hl)
    exact absurd (hshort.symm.trans hnot) nofun

/-- An input that begins with a whole segment, or is no more than one segment, is cut behind it (R130). -/
theorem chunk_append {s : Nat} (hs : 1 ≤ s) {x y : List Byte} (hx : InBlock x.length s)
    (h : x.length = s ∨ y = []) : chunk s hs (x ++ y) = ⟨x, hx⟩ :: chunk s hs y := by
  have htake : (x ++ y).take s = x := by
    obtain h | rfl := h
    · exact List.take_left' h
    · rw [List.append_nil, List.take_of_length_le hx.2]
  have hdrop : (x ++ y).drop s = y := by
    obtain h | rfl := h
    · exact List.drop_left' h
    · rw [List.append_nil, List.drop_eq_nil_of_le hx.2]
  cases x with
  | nil => exact absurd hx.1 (by decide)
  | cons b x =>
    rw [List.cons_append] at htake hdrop ⊢
    rw [chunk_cons, hdrop]
    exact congrArg (· :: _) (Subtype.ext htake)

/-- The items of an invocation hold these values (R22, R24, R25, R26). -/
structure HoldsItems (dir : Direction) (K : Bytes Config.keyLen) (S : SegSize) (R : Bytes Config.blockSize)
    (s : State) : Prop where
  DIR_eq : s.DIR = some dir
  K_eq : s.K = some K
  S_eq : s.S = some S
  R_eq : s.R = some R

/-- A SEG after which an invocation is live has processed its segment with the items the state held. -/
theorem execSeg_to_live_with {data : List Byte} {s t : State} {dir : Direction} {K : Bytes Config.keyLen}
    {S : SegSize} {R : Bytes Config.blockSize} (hs : HoldsItems dir K S R s) (h : execSeg data s = .next t)
    (hl : t.live = true) :
    ∃ c : SegInContract data S s.SHORT, t = processSegment data S R K dir s ⟨c.1.1, c.1.2.trans S.le_blockSize⟩ := by
  obtain ⟨-, S', R', K', dir', c, hS, hR, hK, hD, hc, rfl⟩ := execSeg_to_live h hl
  cases hs.S_eq.symm.trans hS
  cases hs.R_eq.symm.trans hR
  cases hs.K_eq.symm.trans hK
  cases hs.DIR_eq.symm.trans hD
  exact ⟨hc, rfl⟩

/-- SEGs that leave the invocation live have appended the outputs of the recurrence of R132 to the accumulator, for
the host's segments are the chunks of what it presented. -/
theorem ACC_of_live_segs {segs : List (List Byte)} {dir : Direction} {K : Bytes Config.keyLen} {S : SegSize}
    {R : Bytes Config.blockSize} {s t : State} (hs : HoldsItems dir K S R s)
    (h : execAll (segs.map .seg) s = .next t) (hl : t.live = true) :
    t.ACC = s.ACC ++ segmentsOutput Config.E dir K S.le_blockSize R (chunk S.val S.one_le segs.flatten) := by
  induction segs generalizing s R with
  | nil => cases h; exact (List.append_nil _).symm
  | cons data segs ih =>
    obtain ⟨u, hu, h⟩ := execAll_cons_next h
    obtain ⟨c, rfl⟩ := execSeg_to_live_with hs hu (live_of_execAll_segs h hl)
    have hlast : data.length = S.val ∨ segs.flatten = [] := by
      by_cases hlt : data.length < S.val
      · have hshort : shortAfter s.SHORT data.length S = true := by simp [shortAfter, hlt]
        rw [segs_eq_nil_of_short hshort h hl]
        exact .inr rfl
      · exact .inl (c.1.2.antisymm (Nat.le_of_not_lt hlt))
    have hitems : HoldsItems dir K S (registerOf Config.E dir K S.le_blockSize R ⟨data, c.1⟩)
        (processSegment data S R K dir s ⟨c.1.1, c.1.2.trans S.le_blockSize⟩) :=
      ⟨hs.DIR_eq, hs.K_eq, hs.S_eq, rfl⟩
    rw [ih hitems h, List.flatten_cons, chunk_append S.one_le c.1 hlast, processSegment_ACC, List.append_assoc]
    rfl

/-- Settles O46: START was accepted, or no invocation would be live; it seeds the recurrence, and the SEGs follow it. -/
theorem acceptedStreamIsTransform : Obligations.AcceptedStreamIsTransform := by
  intro dir key iv segSize segs s t hidle h hl
  obtain ⟨u, hu, h⟩ := execAll_cons_next h
  have hul := live_of_execAll_segs h hl
  obtain ⟨-, rfl⟩ | ⟨-, -, rfl⟩ | ⟨c, -, rfl⟩ := execStart_cases hu
  · exact absurd (hidle.symm.trans hul) nofun
  · cases hul
  · rw [transform, dif_pos c, ACC_of_live_segs ⟨rfl, rfl, rfl, rfl⟩ h hl]
    rfl

/-! ### The commands state by state -/

/-- Settles O22: the gate rejects what the table does not list, and an executed command answers OK or InvalidLength. -/
theorem executedExactlyWhenEnabled : Obligations.ExecutedExactlyWhenEnabled := by
  refine ⟨fun i s hf => ?_, fun i s t hf h => ?_⟩
  · cases i with
    | start dir key iv n => exact exec_of_not_enabled (start_not_enabled dir key iv n hf)
    | seg data => exact exec_of_not_enabled (seg_not_enabled data hf)
    | finish => exact exec_of_not_enabled (finish_not_enabled hf)
    | abort => exact hf.elim
    | stat => exact hf.elim
  · cases i with
    | start dir key iv n => exact lastStatus_ne_rejected (start_enabled dir key iv n hf) h
    | seg data => exact lastStatus_ne_rejected (seg_enabled data hf) h
    | finish => exact lastStatus_ne_rejected (finish_enabled hf) h
    | abort => exact lastStatus_ne_rejected rfl h
    | stat => exact lastStatus_ne_rejected rfl h

theorem segSize_eq_of_val {S T : SegSize} (h : S.val = T.val) : S = T := by
  cases S; cases T; cases h; rfl

/-- The segment size as START's operand is the segment size: it fits one byte (R5, R26). -/
theorem segSizeByte_toNat (S : SegSize) : (BitVec.ofNat 8 S.val).toNat = S.val := segField_some_toNat S

/-- A key, an IV and a segment size of the right types are in contract (R151). -/
theorem startInContract_of_typed (K : Bytes Config.keyLen) (IV : Bytes Config.blockSize) (S : SegSize) :
    StartInContract K.toList IV.toList (BitVec.ofNat 8 S.val) :=
  ⟨by rw [segSizeByte_toNat]; exact ⟨S.one_le, S.le_blockSize⟩, Vector.length_toList, Vector.length_toList⟩

/-- Settles O23: the gate of the table, then START's check of its operands. -/
theorem startBeginsInvocationOrFails : Obligations.StartBeginsInvocationOrFails := by
  refine ⟨fun s dir K IV S hf => ?_, fun s dir key iv n hf hbad => ?_, fun s dir key iv n hf => ?_⟩
  · have c := startInContract_of_typed K IV S
    have hS : (⟨_, c.1.1, c.1.2⟩ : SegSize) = S := segSize_eq_of_val (segSizeByte_toNat S)
    rw [exec_start, execStart_in_contract (start_enabled dir _ _ _ hf) c]
    simp only [beginInvocation, hS, seed, ofList_toList]
    rfl
  · exact execStart_out_of_contract (start_enabled dir key iv n hf) (by rintro ⟨hn, hkey, hiv⟩; omega)
  · exact exec_of_not_enabled (start_not_enabled dir key iv n hf)

/-- Settles O24: the gate of the table, then SEG's check of its operand. -/
theorem segProcessesSegmentOrFails : Obligations.SegProcessesSegmentOrFails := by
  refine ⟨fun s data S R K dir hf hS hR hK hD hpos hle hshort => ?_, fun s data S hf hS hbad => ?_,
    fun s data hf => exec_of_not_enabled (seg_not_enabled data hf)⟩
  · have c : InBlock data.length Config.blockSize := ⟨hpos, hle.trans S.le_blockSize⟩
    refine ⟨segmentRegister Config.E dir K R (Bytes.ofList data rfl) c, ?_, ?_⟩
    · cases dir <;> rfl
    · have hflag : shortAfter s.SHORT data.length S = decide (data.length < S.val) := by
        rw [hshort, shortAfter, Bool.false_or]
      rw [exec_seg, execSeg_in_contract (seg_enabled data hf) hS hR hK hD ⟨⟨hpos, hle⟩, hshort⟩, processSegment, hflag]
      rfl
  · refine execSeg_out_of_contract (seg_enabled data hf) hS ?_
    rintro ⟨hlen, hshort⟩
    obtain h | h | h := hbad
    · omega
    · omega
    · exact absurd (h.symm.trans hshort) nofun

/-- Settles O25: the gate of the table. -/
theorem finishReleasesRegisterAndKey : Obligations.FinishReleasesRegisterAndKey :=
  ⟨fun _ hf => whenEnabled_of_enabled _ (finish_enabled hf),
    fun _ hf => exec_of_not_enabled (finish_not_enabled hf)⟩

/-- Settles O26: no state disables ABORT, and what it does is clear the items. -/
theorem abortRestoresIdle : Obligations.AbortRestoresIdle := execAbort_eq

/-- Settles O27: no state disables STAT, and it only responds. -/
theorem statReturnsStatusWord : Obligations.StatReturnsStatusWord := execStat_eq

/-! ### Transitions, the flag SHORT and empty input -/

/-- Settles O32: the enablement table tells the rejections from the rest, and the length checks tell `Fail()` from
success. -/
theorem fsmTransitions : Obligations.FsmTransitions := by
  intro i s t _ h
  cases i with
  | start dir key iv n =>
    obtain ⟨e, rfl⟩ | ⟨e, c, rfl⟩ | ⟨c, e, rfl⟩ := execStart_cases h
    · rw [enabled_start, Bool.not_eq_false'] at e
      simp [e]
    · rw [enabled_start, Bool.not_eq_true'] at e
      have hbad : ¬ (key.length = Config.keyLen ∧ iv.length = Config.blockSize ∧ 1 ≤ n.toNat ∧
          n.toNat ≤ Config.blockSize) := fun ⟨hkey, hiv, hpos, hle⟩ => c ⟨⟨hpos, hle⟩, hkey, hiv⟩
      simp [e, hbad]
    · rw [enabled_start, Bool.not_eq_true'] at e
      simp [e, c]
  | seg data =>
    obtain ⟨e, rfl⟩ | ⟨S, e, hS, c, rfl⟩ | ⟨S, R, K, dir, -, e, hS, -, -, -, ⟨⟨hpos, hle⟩, hshort⟩, rfl⟩ :=
      execSeg_cases h <;> rw [enabled_seg] at e
    · simp [e]
    · have hbad : data.length = 0 ∨ s.SHORT = true ∨ S.val < data.length := by
        cases hshort : s.SHORT with
        | true => exact .inr (.inl rfl)
        | false =>
          have hlen : ¬ InBlock data.length S.val := fun hlen => c ⟨hlen, hshort⟩
          omega
      simpa [e, hS] using hbad
    · simp [e, hS, hshort, hle, hpos]
  | finish =>
    obtain ⟨e, rfl⟩ | ⟨e, rfl⟩ := execFinish_cases h <;> rw [enabled_finish] at e <;> simp [e]
  | abort => cases h; rfl
  | stat => cases h; rfl

/-- The flag SHORT is 1 only where the segment size is at least 2 (R124). -/
def ShortOnlyAboveOne (s : State) : Prop := s.SHORT = true → ∃ S, s.S = some S ∧ 2 ≤ S.val

/-- Only SEG sets SHORT, and only for a segment that is not empty and shorter than `S`. -/
theorem exec_keeps_shortOnlyAboveOne {i : Instr} {s t : State} (hs : ShortOnlyAboveOne s) (h : exec i s = .next t) :
    ShortOnlyAboveOne t := by
  cases i with
  | start dir key iv n =>
    obtain ⟨-, rfl⟩ | ⟨-, -, rfl⟩ | ⟨c, -, rfl⟩ := execStart_cases h
    · exact hs
    · exact nofun
    · exact nofun
  | seg data =>
    obtain ⟨-, rfl⟩ | ⟨S, -, -, -, rfl⟩ | ⟨S, R, K, dir, c, -, hS, -, -, -, ⟨-, hshort⟩, rfl⟩ := execSeg_cases h
    · exact hs
    · exact nofun
    · intro hset
      rw [processSegment_SHORT, hshort, shortAfter, Bool.false_or, decide_eq_true_eq] at hset
      exact ⟨S, hS, (Nat.succ_le_succ c.1).trans hset⟩
  | finish => obtain ⟨-, rfl⟩ | ⟨-, rfl⟩ := execFinish_cases h <;> exact hs
  | abort => cases h; exact nofun
  | stat => cases h; exact hs

/-- Settles O34: a command keeps it, a rejected header and a wait change neither item, and a reset clears SHORT. -/
theorem noShortSegmentAtSizeOne : Obligations.NoShortSegmentAtSizeOne := by
  intro s t hs h
  obtain ⟨i, rest, -, h⟩ | ⟨hd, rest, -, rfl⟩ | ⟨rest, -, rfl⟩ | ⟨-, rfl⟩ := step_cases h
  · exact exec_keeps_shortOnlyAboveOne (s := setPorts rest s) hs h
  · exact hs
  · exact nofun
  · exact hs

/-- Settles O56: START begins the invocation, in which FINISH is enabled. -/
theorem emptyInputCompletes : Obligations.EmptyInputCompletes := by
  intro s dir key iv n hidle c
  have e : enabled (.start dir key iv n) s.fsm = true := by rw [enabled_start, hidle, Bool.not_false]
  have hrun : execAll [.start dir key iv n, .finish] s =
      execAll [.finish] (respond 1#4 .ok [] (beginInvocation dir key iv n s c)) := by
    rw [execAll, exec_start, execStart_in_contract e c]
  exact ⟨_, hrun, rfl, rfl, rfl, rfl, rfl⟩

end Sys2Proof.Machine
end

section
/-! PROOFS of the family 44_transform_and_laws.md: chunking (R130), the transform as a function and its laws (R134 to
R142), START after earlier invocations (R144), and the pseudo-instruction TRANSFORM on the machine, as commands and as
the steps of a command stream (R131). -/

namespace Sys2Proof.Machine

/-! ### Cutting the input (R130) -/

/-- Induction along the cuts of R130: an input is empty, or a segment and the rest, and the segment is whole unless
nothing follows it. -/
theorem chunk_induction {s : Nat} (hs : 1 ≤ s) {P : List Byte → Prop} (nil : P [])
    (append : ∀ (X : Segment s) (x : List Byte), X.val.length = s ∨ x = [] → P x → P (X.val ++ x)) :
    ∀ x : List Byte, P x
  | [] => nil
  | b :: x => by
    have hX : InBlock ((b :: x).take s).length s := by simp only [List.length_take, List.length_cons]; omega
    have hcut : ((b :: x).take s).length = s ∨ (b :: x).drop s = [] := by
      rw [List.length_take, List.drop_eq_nil_iff]; omega
    have happ := append ⟨_, hX⟩ _ hcut (chunk_induction hs nil append ((b :: x).drop s))
    rwa [List.take_append_drop] at happ
termination_by x => x.length
decreasing_by simp only [List.length_drop, List.length_cons]; omega

section
variable {s : Nat} (hs : 1 ≤ s)

/-- The chunks of a segment and the rest, in the form of `chunk_induction`. -/
theorem chunk_segment_append {X : Segment s} {x : List Byte} (h : X.val.length = s ∨ x = []) :
    chunk s hs (X.val ++ x) = X :: chunk s hs x := chunk_append hs X.property h

@[simp] theorem flatMap_chunk (x : List Byte) : (chunk s hs x).flatMap Subtype.val = x := by
  induction x using chunk_induction hs with
  | nil => rfl
  | append X x h ih => rw [chunk_segment_append hs h, List.flatMap_cons, ih]

theorem chunk_length (x : List Byte) : (chunk s hs x).length = (x.length + s - 1) / s := by
  induction x using chunk_induction hs with
  | nil => exact (Nat.div_eq_of_lt (by rw [List.length_nil]; omega)).symm
  | append X x h ih =>
    rw [chunk_segment_append hs h, List.length_cons, ih, List.length_append]
    obtain h | rfl := h
    · rw [h, show s + x.length + s - 1 = x.length + s - 1 + s by omega, Nat.add_div_right _ hs]
    · have hX := X.property
      rw [List.length_nil, Nat.div_eq_of_lt (by omega),
        show X.val.length + 0 + s - 1 = X.val.length - 1 + s by omega, Nat.add_div_right _ hs,
        Nat.div_eq_of_lt (by omega)]

/-- Segment `j` is the slice of the input that R130 gives. -/
theorem val_of_chunk_getElem? {x : List Byte} {j : Nat} {X : Segment s} (hj : (chunk s hs x)[j]? = some X) :
    X.val = (x.drop (j * s)).take s := by
  induction x using chunk_induction hs generalizing j with
  | nil => cases hj
  | append Y x h ih =>
    rw [chunk_segment_append hs h] at hj
    cases j with
    | zero =>
      cases hj
      obtain h | rfl := h
      · simp [← h]
      · simp [List.take_of_length_le X.property.2]
    | succ j =>
      rw [List.getElem?_cons_succ] at hj
      obtain h | rfl := h
      · rw [ih hj, Nat.succ_mul, Nat.add_comm, ← List.drop_drop, List.drop_left' h]
      · cases hj

end

/-- Settles O43, by induction along the cuts. -/
theorem chunkCutsInput : Obligations.ChunkCutsInput := by
  intro s hs x
  refine ⟨chunk_length hs x, fun j hj => ?_, flatMap_chunk hs x⟩
  exact val_of_chunk_getElem? hs (List.getElem?_eq_getElem hj)

/-! ### The function `transform` (R132) -/

/-- The function answers bytes exactly when the lengths are in contract, and then those of the recurrence. -/
theorem transform_eq_ok_iff {KLEN B : Nat} {E : Bytes KLEN → Bytes B → Bytes B} {dir : Direction}
    {key iv : List Byte} {s : Nat} {x y : List Byte} : transform E dir key iv s x = .ok y ↔
      ∃ h : InBlock s B ∧ key.length = KLEN ∧ iv.length = B,
        y = segmentsOutput E dir (Bytes.ofList key h.2.1) h.1.2 (seed iv h.2.2) (chunk s h.1.1 x) := by
  unfold transform
  split
  case isTrue h => exact ⟨fun e => ⟨h, (Except.ok.inj e).symm⟩, fun ⟨_, e⟩ => congrArg Except.ok e.symm⟩
  case isFalse h => exact ⟨nofun, fun ⟨c, _⟩ => absurd c h⟩

section
variable {KLEN B s : Nat} (E : Bytes KLEN → Bytes B → Bytes B) (dir : Direction) (K : Bytes KLEN)
  (hs : s ≤ B) (R : Bytes B)

/-! ### The output cut into segments -/

/-- `Y_j` as a segment: it is as long as `X_j` (R125, R132). -/
def outputSegment (X : Segment s) : Segment s :=
  ⟨outputOf E K hs R X, by rw [outputOf_length]; exact X.property⟩

@[simp] theorem outputSegment_val (X : Segment s) : (outputSegment E K hs R X).val = outputOf E K hs R X := rfl

/-- `Y_0, ..., Y_(m-1)`: the output of a list of segments, segment by segment (R132). -/
def outputSegments : Bytes B → List (Segment s) → List (Segment s)
  | _, [] => []
  | R, X :: Xs => outputSegment E K hs R X :: outputSegments (registerOf E dir K hs R X) Xs

theorem outputSegments_length (Xs : List (Segment s)) : (outputSegments E dir K hs R Xs).length = Xs.length := by
  induction Xs generalizing R with
  | nil => rfl
  | cons X Xs ih => rw [outputSegments, List.length_cons, ih, List.length_cons]

theorem flatMap_outputSegments (Xs : List (Segment s)) :
    (outputSegments E dir K hs R Xs).flatMap Subtype.val = segmentsOutput E dir K hs R Xs := by
  induction Xs generalizing R with
  | nil => rfl
  | cons X Xs ih => rw [outputSegments, List.flatMap_cons, ih, segmentsOutput, outputSegment_val]

theorem segmentsOutput_length (Xs : List (Segment s)) :
    (segmentsOutput E dir K hs R Xs).length = (Xs.flatMap Subtype.val).length := by
  induction Xs generalizing R with
  | nil => rfl
  | cons X Xs ih => rw [segmentsOutput, List.length_append, outputOf_length, ih, List.flatMap_cons, List.length_append]

@[simp] theorem segmentsOutput_chunk_length (hs1 : 1 ≤ s) (x : List Byte) :
    (segmentsOutput E dir K hs R (chunk s hs1 x)).length = x.length := by
  rw [segmentsOutput_length, flatMap_chunk]

/-- The output is cut where the input was cut (R137, R138). -/
theorem chunk_segmentsOutput (hs1 : 1 ≤ s) (x : List Byte) :
    chunk s hs1 (segmentsOutput E dir K hs R (chunk s hs1 x)) = outputSegments E dir K hs R (chunk s hs1 x) := by
  induction x using chunk_induction hs1 generalizing R with
  | nil => rfl
  | append X x h ih =>
    rw [chunk_segment_append hs1 h, segmentsOutput, outputSegments, ← ih]
    refine chunk_segment_append (X := outputSegment E K hs R X) hs1 ?_
    rw [outputSegment_val, outputOf_length]
    exact h.imp_right fun hx => by rw [hx]; rfl

/-! ### The way back (R137, R138) -/

/-- The direction in which a transform is undone (R137). -/
def opposite : Direction → Direction
  | .encrypt => .decrypt
  | .decrypt => .encrypt

/-- The same keystream once more gives the segment back. -/
@[simp] theorem outputOf_outputSegment (X : Segment s) : outputOf E K hs R (outputSegment E K hs R X) = X.val := by
  have hB : X.val.length ≤ (E K R).toList.length := by rw [Vector.length_toList]; exact X.property.2.trans hs
  have hks : X.val.length ≤ ((E K R).toList.take X.val.length).length := (List.length_take_of_le hB).ge
  rw [outputOf_eq, outputSegment_val, outputOf_length, outputOf_eq, zipWith_xor_cancel _ _ hks]

/-- The way back shifts the same ciphertext into the register. -/
@[simp] theorem registerOf_opposite_outputSegment (X : Segment s) :
    registerOf E (opposite dir) K hs R (outputSegment E K hs R X) = registerOf E dir K hs R X := by
  apply bytes_ext_toList
  cases dir with
  | encrypt => rw [opposite, registerOf_decrypt, registerOf_encrypt, outputSegment_val, outputOf_length]
  | decrypt =>
    rw [opposite, registerOf_encrypt, registerOf_decrypt, outputOf_outputSegment, outputSegment_val, outputOf_length]

theorem segmentsOutput_opposite (Xs : List (Segment s)) :
    segmentsOutput E (opposite dir) K hs R (outputSegments E dir K hs R Xs) = Xs.flatMap Subtype.val := by
  induction Xs generalizing R with
  | nil => rfl
  | cons X Xs ih =>
    rw [outputSegments, segmentsOutput, outputOf_outputSegment, registerOf_opposite_outputSegment, ih,
      List.flatMap_cons]

theorem segmentsRequests_opposite (Xs : List (Segment s)) :
    segmentsRequests E (opposite dir) K hs R (outputSegments E dir K hs R Xs) = segmentsRequests E dir K hs R Xs := by
  induction Xs generalizing R with
  | nil => rfl
  | cons X Xs ih =>
    rw [outputSegments, segmentsRequests, registerOf_opposite_outputSegment, ih, segmentsRequests]

theorem segmentsRequests_length (Xs : List (Segment s)) :
    (segmentsRequests E dir K hs R Xs).length = Xs.length := by
  induction Xs generalizing R with
  | nil => rfl
  | cons X Xs ih => rw [segmentsRequests, List.length_cons, ih, List.length_cons]

end

/-- The transform of the transform in the opposite direction is the input. -/
theorem transform_opposite {KLEN B : Nat} {E : Bytes KLEN → Bytes B → Bytes B} {dir : Direction}
    {key iv : List Byte} {s : Nat} {x y : List Byte} (h : transform E dir key iv s x = .ok y) :
    transform E (opposite dir) key iv s y = .ok x := by
  obtain ⟨c, rfl⟩ := transform_eq_ok_iff.mp h
  refine transform_eq_ok_iff.mpr ⟨c, ?_⟩
  rw [chunk_segmentsOutput, segmentsOutput_opposite, flatMap_chunk]

/-- Settles O48: the two directions are opposite to each other. -/
theorem decryptInvertsEncrypt : Obligations.DecryptInvertsEncrypt :=
  fun _ _ _ _ _ _ => ⟨transform_opposite, transform_opposite⟩

theorem transform_length {KLEN B : Nat} {E : Bytes KLEN → Bytes B → Bytes B} {dir : Direction}
    {key iv : List Byte} {s : Nat} {x y : List Byte} (h : transform E dir key iv s x = .ok y) :
    y.length = x.length := by
  obtain ⟨c, rfl⟩ := transform_eq_ok_iff.mp h
  exact segmentsOutput_chunk_length _ _ _ _ _ _ _

/-- Settles O47: the output of a segment is as long as the segment, and the segments are the input. -/
theorem transformPreservesLength : Obligations.TransformPreservesLength :=
  fun _ _ _ _ _ _ _ h => transform_length h

/-- Settles O51: the ciphertext is cut where the plaintext was, and its segments lead to the same registers. -/
theorem decryptionMakesSameRequests : Obligations.DecryptionMakesSameRequests := by
  intro KLEN B s E K iv hs1 hs P
  rw [chunk_segmentsOutput]
  exact segmentsRequests_opposite E .encrypt K hs iv _

/-- Settles O52: one request per segment. -/
theorem primRequestCount : Obligations.PrimRequestCount := by
  intro KLEN B s E dir K iv hs1 hs x
  rw [segmentsRequests_length, chunk_length]

/-! ### The register as the last block of the ciphertext (R134) -/

section
variable {B : Nat} (R : Bytes B)

@[simp] theorem lastBlock_toList (C : List Byte) : (lastBlock R C).toList = (R.toList ++ C).drop C.length := rfl

@[simp] theorem lastBlock_nil : lastBlock R [] = R := bytes_ext_toList (by simp)

/-- Ciphertext can be shifted in piece by piece. -/
theorem lastBlock_append (C C' : List Byte) : lastBlock R (C ++ C') = lastBlock (lastBlock R C) C' := by
  apply bytes_ext_toList
  have hC : C.length ≤ (R.toList ++ C).length := by simp
  simp only [lastBlock_toList]
  rw [List.length_append, ← List.drop_drop, ← List.append_assoc, List.drop_append_of_le_length hC]

/-- Only the last `B` bytes of the ciphertext can stay in the register. -/
theorem lastBlock_congr {C C' : List Byte} (hlen : C.length = C'.length)
    (h : ∀ i, C.length ≤ i + B → C.getD i 0 = C'.getD i 0) : lastBlock R C = lastBlock R C' := by
  have htail : C.drop (C.length - B) = C'.drop (C'.length - B) := by
    refine List.ext_getElem (by simp [hlen]) fun i hi hi' => ?_
    rw [List.length_drop] at hi hi'
    have hbyte := h (C.length - B + i) (by omega)
    rw [List.getElem_drop, List.getElem_drop]
    simpa [hlen, List.getD_eq_getElem?_getD, show C'.length - B + i < C'.length by omega] using hbyte
  apply bytes_ext_toList
  rw [lastBlock_toList, lastBlock_toList, List.drop_append, List.drop_append, Vector.length_toList, htail, hlen]

/-- A byte of the register is one of the bytes shifted in. -/
theorem lastBlock_getD {C : List Byte} (i : Nat) :
    (lastBlock R C).toList.getD i 0 = (R.toList ++ C).getD (C.length + i) 0 := by
  rw [lastBlock_toList, List.getD_eq_getElem?_getD, List.getElem?_drop, ← List.getD_eq_getElem?_getD]

end

/-- The ciphertext of a transform: its output when encrypting, its input when decrypting (R93, R134). -/
def ciphertext (dir : Direction) (input output : List Byte) : List Byte :=
  match dir with
  | .encrypt => output
  | .decrypt => input

@[simp] theorem ciphertext_nil (dir : Direction) : ciphertext dir [] [] = [] := by cases dir <;> rfl

theorem ciphertext_append (dir : Direction) (x x' y y' : List Byte) :
    ciphertext dir (x ++ x') (y ++ y') = ciphertext dir x y ++ ciphertext dir x' y' := by cases dir <;> rfl

theorem ciphertext_length (dir : Direction) {x y : List Byte} (h : y.length = x.length) :
    (ciphertext dir x y).length = x.length := by
  cases dir
  · exact h
  · rfl

section
variable {KLEN B s : Nat} (E : Bytes KLEN → Bytes B → Bytes B) (dir : Direction) (K : Bytes KLEN)
  (hs : s ≤ B) (R : Bytes B)

/-- ADVANCE shifts the ciphertext of the segment in. -/
theorem registerOf_eq_lastBlock (X : Segment s) :
    registerOf E dir K hs R X = lastBlock R (ciphertext dir X.val (outputOf E K hs R X)) := by
  have hX : X.val.length ≤ R.toList.length := by rw [Vector.length_toList]; exact X.property.2.trans hs
  apply bytes_ext_toList
  cases dir with
  | encrypt =>
    rw [registerOf_encrypt, lastBlock_toList, ciphertext, outputOf_length, List.drop_append_of_le_length hX]
  | decrypt => rw [registerOf_decrypt, lastBlock_toList, ciphertext, List.drop_append_of_le_length hX]

theorem segmentsRegister_eq_lastBlock (Xs : List (Segment s)) : segmentsRegister E dir K hs R Xs =
    lastBlock R (ciphertext dir (Xs.flatMap Subtype.val) (segmentsOutput E dir K hs R Xs)) := by
  induction Xs generalizing R with
  | nil => rw [segmentsRegister, segmentsOutput, List.flatMap_nil, ciphertext_nil, lastBlock_nil]
  | cons X Xs ih =>
    rw [segmentsRegister, ih, segmentsOutput, List.flatMap_cons, ciphertext_append, lastBlock_append,
      ← registerOf_eq_lastBlock]

/-! ### The transform byte by byte (R134, R142) -/

/-- The byte of the keystream for position `q` of a transform with ciphertext `C` (R98, R134). -/
def keystreamByte (s : Nat) (C : List Byte) (q : Nat) : Byte :=
  (E K (lastBlock R (C.take (q / s * s)))).toList.getD (q % s) 0

/-- In the first segment the keystream comes from the IV alone. -/
theorem keystreamByte_of_lt {q : Nat} (C : List Byte) (hq : q < s) :
    keystreamByte E K R s C q = (E K R).toList.getD q 0 := by
  rw [keystreamByte, Nat.div_eq_of_lt hq, Nat.mod_eq_of_lt hq, Nat.zero_mul, List.take_zero, lastBlock_nil]

/-- Behind a whole segment the keystream is that of the rest, from the register which that segment leaves. -/
theorem keystreamByte_append {c : List Byte} (hc : c.length = s) (hs1 : 1 ≤ s) (C : List Byte) (q : Nat) :
    keystreamByte E K R s (c ++ C) (s + q) = keystreamByte E K (lastBlock R c) s C q := by
  rw [keystreamByte, Nat.add_div_left q hs1, Nat.add_mod_left, Nat.succ_mul, Nat.add_comm (q / s * s), ← hc,
    List.take_length_add_append, lastBlock_append, keystreamByte]

/-- The keystream of a segment reads nothing of the ciphertext but the last `B` bytes before it. -/
theorem keystreamByte_congr {C C' : List Byte} {q : Nat} (hlen : C.length = C'.length)
    (h : ∀ i, i < q / s * s → q / s * s ≤ i + B → C.getD i 0 = C'.getD i 0) (hq : q < C.length) :
    keystreamByte E K R s C q = keystreamByte E K R s C' q := by
  have hle : q / s * s ≤ q := Nat.div_mul_le_self q s
  have hreg : lastBlock R (C.take (q / s * s)) = lastBlock R (C'.take (q / s * s)) := by
    refine lastBlock_congr R (by simp [hlen]) fun i hi => ?_
    rw [List.length_take_of_le (by omega)] at hi
    by_cases hlt : i < q / s * s
    · simpa [List.getD_eq_getElem?_getD, List.getElem?_take, hlt] using h i hlt hi
    · simp [List.getD_eq_getElem?_getD, hlt]
  rw [keystreamByte, hreg, keystreamByte]

theorem outputOf_getD (X : Segment s) {q : Nat} (hq : q < X.val.length) :
    (outputOf E K hs R X).getD q 0 = X.val.getD q 0 ^^^ (E K R).toList.getD q 0 := by
  have hB : q < B := hq.trans_le (X.property.2.trans hs)
  simp [outputOf_eq, List.getD_eq_getElem?_getD, hq, hB]

/-- Every byte of the output is the input byte under its byte of the keystream, in both directions. -/
theorem segmentsOutput_getD (hs1 : 1 ≤ s) (x : List Byte) {q : Nat} (hq : q < x.length) :
    (segmentsOutput E dir K hs R (chunk s hs1 x)).getD q 0 =
      x.getD q 0 ^^^
        keystreamByte E K R s (ciphertext dir x (segmentsOutput E dir K hs R (chunk s hs1 x))) q := by
  induction x using chunk_induction hs1 generalizing R q with
  | nil => exact absurd hq (Nat.not_lt_zero q)
  | append X x h ih =>
    rw [chunk_segment_append hs1 h, segmentsOutput]
    have hX := X.property.2
    have hO : (outputOf E K hs R X).length = X.val.length := outputOf_length E K hs R X
    by_cases hlt : q < X.val.length
    · rw [List.getD_append _ _ _ _ (hO.symm ▸ hlt), List.getD_append _ _ _ _ hlt, outputOf_getD E K hs R X hlt,
        keystreamByte_of_lt E K R _ (hlt.trans_le hX)]
    · obtain h | rfl := h
      · obtain ⟨q, rfl⟩ := Nat.exists_eq_add_of_le (h ▸ Nat.le_of_not_lt hlt)
        have hx : q < x.length := by rw [List.length_append] at hq; omega
        rw [List.getD_append_right _ _ _ _ (by omega), List.getD_append_right _ _ _ _ (by omega), hO, h,
          Nat.add_sub_cancel_left, ih _ hx, ciphertext_append,
          keystreamByte_append E K R ((ciphertext_length dir hO).trans h) hs1, ← registerOf_eq_lastBlock]
      · exact absurd (by simpa using hq) hlt

end

/-- Every byte of a transform is the input byte under its byte of the keystream of the key and the IV. -/
theorem transform_getD {KLEN B : Nat} {E : Bytes KLEN → Bytes B → Bytes B} {dir : Direction}
    {key iv : List Byte} {s : Nat} {x y : List Byte} (h : transform E dir key iv s x = .ok y) :
    ∃ c : InBlock s B ∧ key.length = KLEN ∧ iv.length = B, ∀ q, q < x.length →
      y.getD q 0 = x.getD q 0 ^^^
        keystreamByte E (Bytes.ofList key c.2.1) (seed iv c.2.2) s (ciphertext dir x y) q := by
  obtain ⟨c, rfl⟩ := transform_eq_ok_iff.mp h
  exact ⟨c, fun q hq => segmentsOutput_getD E dir _ c.1.2 _ c.1.1 x hq⟩

/-- Settles O49: every segment shifts its ciphertext in. -/
theorem registerIsLastCiphertext : Obligations.RegisterIsLastCiphertext := by
  intro KLEN B s E dir K iv hs Xs
  rw [segmentsRegister_eq_lastBlock]
  cases dir <;> rfl

/-- Settles O50: the keystream of a decryption reads its input alone. -/
theorem decryptionFromCiphertextAlone : Obligations.DecryptionFromCiphertextAlone := by
  intro KLEN B E K iv s C D h q hq
  obtain ⟨_, hbyte⟩ := transform_getD h
  exact hbyte q hq

/-- Two outputs of one length with the same bytes are equal. -/
theorem ext_getD {y y' : List Byte} (hlen : y.length = y'.length)
    (h : ∀ q, q < y.length → y.getD q 0 = y'.getD q 0) : y = y' := by
  refine List.ext_getElem hlen fun q hq hq' => ?_
  simpa [List.getD_eq_getElem?_getD, hq, hq'] using h q hq

/-- Settles O54: both outputs begin with the input under the keystream of the IV alone. -/
theorem outputsAgreeOnFirstSegment : Obligations.OutputsAgreeOnFirstSegment := by
  intro KLEN B E dir key iv s s' x y y' h h'
  have hlen := transform_length h
  have hlen' := transform_length h'
  obtain ⟨_, hbyte⟩ := transform_getD h
  obtain ⟨_, hbyte'⟩ := transform_getD h'
  refine ext_getD (by simp [hlen, hlen']) fun q hq => ?_
  obtain ⟨hs, hs', hx⟩ : q < s ∧ q < s' ∧ q < y.length := by simpa using hq
  rw [hlen] at hx
  have hmin : q < min s s' := lt_min hs hs'
  have hy : y.getD q 0 = y'.getD q 0 := by
    rw [hbyte q hx, hbyte' q hx, keystreamByte_of_lt _ _ _ _ hs, keystreamByte_of_lt _ _ _ _ hs']
  simpa [List.getD_eq_getElem?_getD, List.getElem?_take, hmin] using hy

/-! ### The identity as primitive (R141) -/

/-- With the identity as primitive the keystream is the IV followed by the ciphertext, whatever the segment size. -/
theorem keystreamByte_identity {KLEN B s : Nat} (K : Bytes KLEN) (R : Bytes B) (hs : InBlock s B) {C : List Byte}
    {q : Nat} (hq : q < C.length) :
    keystreamByte (fun _ b => b) K R s C q = (R.toList ++ C).getD q 0 := by
  have hdiv : q / s * s + q % s = q := Nat.div_add_mod' q s
  have hmod : q % s < s := Nat.mod_lt q hs.1
  obtain ⟨-, hsB⟩ := hs
  have hpre : (C.take (q / s * s)).length = q / s * s := List.length_take_of_le (by omega)
  have hin : q < (R.toList ++ C.take (q / s * s)).length := by
    rw [List.length_append, hpre, Vector.length_toList]; omega
  calc keystreamByte (fun _ b => b) K R s C q
      = (R.toList ++ C.take (q / s * s)).getD q 0 := by rw [keystreamByte, lastBlock_getD, hpre, hdiv]
    _ = (R.toList ++ C.take (q / s * s) ++ C.drop (q / s * s)).getD q 0 := (List.getD_append _ _ _ _ hin).symm
    _ = (R.toList ++ C).getD q 0 := by rw [List.append_assoc, List.take_append_drop]

/-- At most one ciphertext solves the recurrence of the identity primitive: each of its bytes is fixed by those
before it. -/
theorem eq_of_identity_recurrence {iv x y y' : List Byte} (hiv : 1 ≤ iv.length) (hlen : y.length = y'.length)
    (h : ∀ q, q < y.length → y.getD q 0 = x.getD q 0 ^^^ (iv ++ y).getD q 0)
    (h' : ∀ q, q < y.length → y'.getD q 0 = x.getD q 0 ^^^ (iv ++ y').getD q 0) : y = y' := by
  refine ext_getD hlen fun q => ?_
  induction q using Nat.strong_induction_on with
  | h q ih =>
    intro hq
    have hback : (iv ++ y).getD q 0 = (iv ++ y').getD q 0 := by
      by_cases hlt : q < iv.length
      · rw [List.getD_append _ _ _ _ hlt, List.getD_append _ _ _ _ hlt]
      · rw [List.getD_append_right _ _ _ _ (by omega), List.getD_append_right _ _ _ _ (by omega)]
        exact ih (q - iv.length) (by omega) (by omega)
    rw [h q hq, h' q hq, hback]

/-- A ciphertext under the identity primitive solves a recurrence in which the segment size does not occur. -/
theorem encrypt_identity_getD {KLEN B : Nat} {key iv : List Byte} {s : Nat} {x y : List Byte}
    (h : encrypt (fun (_ : Bytes KLEN) (b : Bytes B) => b) key iv s x = .ok y) :
    1 ≤ iv.length ∧ ∀ q, q < y.length → y.getD q 0 = x.getD q 0 ^^^ (iv ++ y).getD q 0 := by
  obtain ⟨⟨hs, hkey, rfl⟩, hbyte⟩ := transform_getD h
  refine ⟨hs.1.trans hs.2, fun q hq => ?_⟩
  have hks := keystreamByte_identity (Bytes.ofList key hkey) (seed iv rfl) hs hq
  exact (hbyte q (transform_length h ▸ hq)).trans (congrArg _ hks)

/-- Settles O55: for both segment sizes the ciphertext solves the same recurrence, which has one solution. -/
theorem identityPrimitiveIgnoresSegmentSize : Obligations.IdentityPrimitiveIgnoresSegmentSize := by
  intro KLEN B key iv s s' x y y' h h'
  have hlen : y.length = y'.length := (transform_length h).trans (transform_length h').symm
  obtain ⟨hiv, hrec⟩ := encrypt_identity_getD h
  obtain ⟨-, hrec'⟩ := encrypt_identity_getD h'
  exact eq_of_identity_recurrence hiv hlen hrec (hlen ▸ hrec')

/-! ### Error propagation (R140) -/

/-- A changed byte under the same keystream changes by the same difference. -/
theorem xor_keystream_of_changed (c c' k : Byte) : c' ^^^ k = c ^^^ k ^^^ c ^^^ c' := by
  rw [BitVec.xor_comm c k, BitVec.xor_assoc k c c, BitVec.xor_self, BitVec.xor_zero, BitVec.xor_comm]

/-- Decryptions of two ciphertexts that differ at `p` only: a byte has the same keystream in both, unless `p` is one
of the `B` bytes before its segment. -/
theorem decrypt_getD_of_changed_byte {KLEN B : Nat} {E : Bytes KLEN → Bytes B → Bytes B} {key iv : List Byte}
    {s p q : Nat} {C C' D D' : List Byte} (hlen : C'.length = C.length)
    (hsame : ∀ q, q ≠ p → C'.getD q 0 = C.getD q 0) (h : decrypt E key iv s C = .ok D)
    (h' : decrypt E key iv s C' = .ok D') (hfar : q / s * s ≤ p ∨ p + B < q / s * s) :
    D'.getD q 0 = D.getD q 0 ^^^ C.getD q 0 ^^^ C'.getD q 0 := by
  by_cases hq : q < C.length
  · obtain ⟨c, hbyte⟩ := transform_getD h
    obtain ⟨_, hbyte'⟩ := transform_getD h'
    have hks := keystreamByte_congr (s := s) E (Bytes.ofList key c.2.1) (seed iv c.2.2) hlen
      (fun i _ _ => hsame i (by omega)) (hlen ▸ hq)
    rw [hbyte q hq, hbyte' q (hlen ▸ hq)]
    simp only [ciphertext, hks]
    exact xor_keystream_of_changed _ _ _
  · have hD : D.length = C.length := transform_length h
    have hD' : D'.length = C'.length := transform_length h'
    rw [List.getD_eq_default _ _ (by omega), List.getD_eq_default _ _ (by omega),
      List.getD_eq_default _ _ (by omega), List.getD_eq_default _ _ (by omega)]
    rfl

/-- A segment beyond the window of R140 begins more than `B` bytes behind the changed byte. -/
theorem segment_start_of_beyond_window {s p q B : Nat} (hs : 1 ≤ s) (h : p / s + (p % s + B) / s < q / s) :
    p + B < q / s * s := by
  have hsum : (p + B) / s = p / s + (p % s + B) / s := by
    rw [← Nat.mul_add_div hs, ← Nat.add_assoc, Nat.div_add_mod]
  rw [← hsum] at h
  exact (Nat.div_lt_iff_lt_mul hs).mp h

/-- Settles O53: where the keystream stays, a byte changes as much as the ciphertext does at its position. -/
theorem errorPropagationIsBounded : Obligations.ErrorPropagationIsBounded := by
  intro KLEN B E key iv s p C C' D D' hlen hp hsame h h'
  obtain ⟨⟨⟨hs, -⟩, -⟩, -⟩ := transform_eq_ok_iff.mp h
  have hbyte (q : Nat) := decrypt_getD_of_changed_byte (q := q) hlen hsame h h'
  have hunchanged (q : Nat) (hne : q ≠ p) (hfar : q / s * s ≤ p ∨ p + B < q / s * s) :
      D'.getD q 0 = D.getD q 0 := by
    rw [hbyte q hfar, hsame q hne, BitVec.xor_assoc, BitVec.xor_self, BitVec.xor_zero]
  refine ⟨hbyte p (.inl (Nat.div_mul_le_self p s)), fun q hseg hne => ?_, fun q hq => ?_, ?_⟩
  · exact hunchanged q hne (.inl (hseg ▸ Nat.div_mul_le_self p s))
  · obtain hlt | hbeyond := hq
    · exact hunchanged q hlt.ne (.inl ((Nat.div_mul_le_self q s).trans hlt.le))
    · have hfar := segment_start_of_beyond_window hs hbeyond
      have hstart := Nat.div_mul_le_self q s
      exact hunchanged q (by omega) (.inr hfar)
  · have hmod := Nat.mod_lt p hs
    exact Nat.div_le_div_right (by omega)

/-! ### What a START leaves (R144) -/

theorem start_enabled_of_idle {s : State} (dir : Direction) (key iv : List Byte) (n : Byte) (hidle : s.live = false) :
    enabled (.start dir key iv n) s.fsm = true := start_enabled dir key iv n ((not_live_iff s).mp hidle)

/-- START where no invocation is live either fails, or begins the invocation its operands describe (R113, R151). -/
theorem execStart_of_idle {dir : Direction} {key iv : List Byte} {n : Byte} {s t : State} (hidle : s.live = false)
    (h : execStart dir key iv n s = .next t) :
    (¬ StartInContract key iv n ∧ t = fail 1#4 s) ∨
    ∃ c : StartInContract key iv n, t = respond 1#4 .ok [] (beginInvocation dir key iv n s c) := by
  obtain ⟨e, -⟩ | ⟨-, c, rfl⟩ | ⟨c, -, rfl⟩ := execStart_cases h
  · exact absurd (start_enabled_of_idle dir key iv n hidle) (Bool.eq_false_iff.mp e)
  · exact .inl ⟨c, rfl⟩
  · exact .inr ⟨c, rfl⟩

/-- Settles O35: `Fail()` and a new invocation write every item, and the operands choose between them. -/
theorem startForgetsThePast : Obligations.StartForgetsThePast := by
  intro dir key iv n s s' t t' hidle hidle' h h'
  obtain ⟨c, rfl⟩ | ⟨c, rfl⟩ := execStart_of_idle hidle h <;>
    obtain ⟨c', rfl⟩ | ⟨c', rfl⟩ := execStart_of_idle hidle' h'
  · rfl
  · exact absurd c' c
  · exact absurd c c'
  · rfl

/-! ### The state after the segments of an input -/

section
variable (dir : Direction) (K : Bytes Config.keyLen) (S : SegSize)

/-- The state that one SEG leaves, where it succeeds (R114). -/
def afterSegment (R : Bytes Config.blockSize) (X : Segment S.val) (s : State) : State :=
  processSegment X.val S R K dir s ⟨X.property.1, X.property.2.trans S.le_blockSize⟩

/-- The state that one SEG per segment leaves, where all succeed, from the register `R` (R114, R132). -/
def afterSegments : Bytes Config.blockSize → List (Segment S.val) → State → State
  | _, [], s => s
  | R, X :: Xs, s =>
    afterSegments (registerOf Config.E dir K S.le_blockSize R X) Xs (afterSegment dir K S R X s)

variable (R : Bytes Config.blockSize) (Xs : List (Segment S.val)) (s : State)

theorem afterSegments_live (hl : s.live = true) : (afterSegments dir K S R Xs s).live = true := by
  induction Xs generalizing R s with
  | nil => exact hl
  | cons X Xs ih => exact ih _ _ rfl

@[simp] theorem afterSegments_CMD : (afterSegments dir K S R Xs s).CMD = s.CMD := by
  induction Xs generalizing R s with
  | nil => rfl
  | cons X Xs ih => exact ih _ _

@[simp] theorem afterSegments_ACC : (afterSegments dir K S R Xs s).ACC =
    s.ACC ++ segmentsOutput Config.E dir K S.le_blockSize R Xs := by
  induction Xs generalizing R s with
  | nil => exact (List.append_nil _).symm
  | cons X Xs ih =>
    rw [afterSegments, ih, afterSegment, processSegment_ACC, List.append_assoc]
    rfl

@[simp] theorem afterSegments_PLOG : (afterSegments dir K S R Xs s).PLOG = s.PLOG ++
    (segmentsRequests Config.E dir K S.le_blockSize R Xs).map fun q => ⟨q.1, q.2.1, q.2.2⟩ := by
  induction Xs generalizing R s with
  | nil => exact (List.append_nil _).symm
  | cons X Xs ih =>
    rw [afterSegments, ih, afterSegment, processSegment_PLOG, List.append_assoc]
    rfl

@[simp] theorem afterSegments_RSP : (afterSegments dir K S R Xs s).RSP = s.RSP ++
    (outputSegments Config.E dir K S.le_blockSize R Xs).map fun Y => ⟨2#4, .ok, Y.val⟩ := by
  induction Xs generalizing R s with
  | nil => exact (List.append_nil _).symm
  | cons X Xs ih =>
    rw [afterSegments, ih, afterSegment, processSegment_RSP, List.append_assoc]
    rfl

end

/-! ### The SEGs of an input (R131) -/

/-- An invocation that can take a segment of any length up to its segment size: it holds these items and has had no
short segment (R114). -/
structure TakesSegments (dir : Direction) (K : Bytes Config.keyLen) (S : SegSize) (R : Bytes Config.blockSize)
    (s : State) : Prop extends HoldsItems dir K S R s where
  live : s.live = true
  not_short : s.SHORT = false

section
variable {dir : Direction} {K : Bytes Config.keyLen} {S : SegSize} {R : Bytes Config.blockSize} {s : State}

theorem TakesSegments.exec_seg (h : TakesSegments dir K S R s) (X : Segment S.val) :
    exec (.seg X.val) s = .next (afterSegment dir K S R X s) :=
  execSeg_in_contract ((enabled_seg _ s).trans h.live) h.S_eq h.R_eq h.K_eq h.DIR_eq ⟨X.property, h.not_short⟩

/-- After a whole segment the next one can follow. -/
theorem TakesSegments.after_whole_segment (h : TakesSegments dir K S R s) {X : Segment S.val}
    (hX : X.val.length = S.val) :
    TakesSegments dir K S (registerOf Config.E dir K S.le_blockSize R X) (afterSegment dir K S R X s) where
  DIR_eq := h.DIR_eq
  K_eq := h.K_eq
  S_eq := h.S_eq
  R_eq := rfl
  live := rfl
  not_short := by
    rw [afterSegment, processSegment_SHORT, h.not_short, shortAfter, hX, Bool.false_or, decide_eq_false (lt_irrefl _)]

/-- SEGs that each process their segment in turn. -/
def AllTaken (dir : Direction) (K : Bytes Config.keyLen) (S : SegSize) :
    Bytes Config.blockSize → List (Segment S.val) → State → Prop
  | _, [], _ => True
  | R, X :: Xs, s => exec (.seg X.val) s = .next (afterSegment dir K S R X s) ∧
      AllTaken dir K S (registerOf Config.E dir K S.le_blockSize R X) Xs (afterSegment dir K S R X s)

/-- The segments of R130 are all taken: only the last can be short (R131). -/
theorem TakesSegments.allTaken_chunk (h : TakesSegments dir K S R s) (x : List Byte) :
    AllTaken dir K S R (chunk S.val S.one_le x) s := by
  induction x using chunk_induction S.one_le generalizing R s with
  | nil => trivial
  | append X x hX ih =>
    rw [chunk_segment_append S.one_le hX]
    refine ⟨h.exec_seg X, ?_⟩
    obtain hX | rfl := hX
    · exact ih (h.after_whole_segment hX)
    · trivial

theorem execAll_cons {i : Instr} {is : List Instr} {s t : State} (h : exec i s = .next t) :
    execAll (i :: is) s = execAll is t := by rw [execAll, h]

theorem execAll_of_allTaken {Xs : List (Segment S.val)} (h : AllTaken dir K S R Xs s) (is : List Instr) :
    execAll (Xs.map (fun X => .seg X.val) ++ is) s = execAll is (afterSegments dir K S R Xs s) := by
  induction Xs generalizing R s with
  | nil => rfl
  | cons X Xs ih => exact (execAll_cons h.1).trans (ih h.2)

theorem issueSegments_cons_ok {X Y y : List Byte} {Xs : List (List Byte)} {op : BitVec 4} {s t : State}
    (h : exec (.seg X) s = .next t) (hr : t.RSP.getLast? = some ⟨op, .ok, Y⟩) :
    issueSegments (X :: Xs) y s = issueSegments Xs (y ++ Y) t := by
  simp only [issueSegments, h, hr]

theorem issueSegments_of_allTaken {Xs : List (Segment S.val)} (h : AllTaken dir K S R Xs s) (y : List Byte) :
    issueSegments (Xs.map Subtype.val) y s =
      issueSegments [] (y ++ segmentsOutput Config.E dir K S.le_blockSize R Xs) (afterSegments dir K S R Xs s) := by
  induction Xs generalizing R s y with
  | nil => rw [segmentsOutput, List.append_nil]; rfl
  | cons X Xs ih =>
    have hr : (afterSegment dir K S R X s).RSP.getLast? =
        some ⟨2#4, .ok, outputOf Config.E K S.le_blockSize R X⟩ := List.getLast?_concat
    rw [List.map_cons, issueSegments_cons_ok h.1 hr, ih h.2, List.append_assoc]
    rfl

end

/-! ### A whole TRANSFORM (R131) -/

section
variable (dir : Direction) {key iv : List Byte} {n : Byte} (c : StartInContract key iv n)

/-- The segment size that START takes from its operand (R113). -/
def startSize (c : StartInContract key iv n) : SegSize := ⟨n.toNat, c.1.1, c.1.2⟩

/-- The state a successful START leaves, with its response (R113). -/
def started (s : State) : State := respond 1#4 .ok [] (beginInvocation dir key iv n s c)

/-- The state a successful FINISH leaves, with its response (R115). -/
def finished (s : State) : State := respond 3#4 .ok [] { s with R := none, K := none, fsm := .done }

/-- The state that a TRANSFORM in contract leaves (R131). -/
def transformed (x : List Byte) (s : State) : State :=
  finished (afterSegments dir (Bytes.ofList key c.2.1) (startSize c) (seed iv c.2.2) (chunk n.toNat c.1.1 x)
    (started dir c s))

/-- The output of R132 for the operands of a TRANSFORM in contract. -/
def transformOutput (x : List Byte) : List Byte :=
  segmentsOutput Config.E dir (Bytes.ofList key c.2.1) c.1.2 (seed iv c.2.2) (chunk n.toNat c.1.1 x)

end

section
variable {dir : Direction} {key iv : List Byte} {n : Byte} {s : State} (c : StartInContract key iv n)

theorem exec_start_of_idle (hidle : s.live = false) : exec (.start dir key iv n) s = .next (started dir c s) :=
  execStart_in_contract (start_enabled_of_idle dir key iv n hidle) c

theorem exec_finish_of_live (hl : s.live = true) : exec .finish s = .next (finished s) :=
  whenEnabled_of_enabled _ ((enabled_finish s).trans hl)

/-- The segments of the input are all taken after START. -/
theorem allTaken_started (x : List Byte) : AllTaken dir (Bytes.ofList key c.2.1) (startSize c) (seed iv c.2.2)
    (chunk n.toNat c.1.1 x) (started dir c s) :=
  TakesSegments.allTaken_chunk ⟨⟨rfl, rfl, rfl, rfl⟩, rfl, rfl⟩ x

/-- FINISH is enabled after the segments. -/
theorem exec_finish_transformed (x : List Byte) :
    exec .finish (afterSegments dir (Bytes.ofList key c.2.1) (startSize c) (seed iv c.2.2) (chunk n.toNat c.1.1 x)
      (started dir c s)) = .next (transformed dir c x s) :=
  exec_finish_of_live (afterSegments_live _ _ _ _ _ _ rfl)

theorem transform_eq_ok (x : List Byte) :
    transform Config.E dir key iv n.toNat x = .ok (transformOutput dir c x) := dif_pos c

theorem transformed_ACC (x : List Byte) : (transformed dir c x s).ACC = transformOutput dir c x :=
  afterSegments_ACC dir _ (startSize c) _ _ _

theorem transformed_CMD (x : List Byte) : (transformed dir c x s).CMD = s.CMD :=
  afterSegments_CMD dir _ (startSize c) _ _ _

theorem transformed_PLOG (x : List Byte) : (transformed dir c x s).PLOG = s.PLOG ++
    (segmentsRequests Config.E dir (Bytes.ofList key c.2.1) c.1.2 (seed iv c.2.2)
      (chunk n.toNat c.1.1 x)).map fun q => ⟨q.1, q.2.1, q.2.2⟩ :=
  afterSegments_PLOG dir _ (startSize c) _ _ _

/-- START and FINISH answer without a payload, and each SEG answers with its output. -/
theorem transformed_RSP (x : List Byte) : (transformed dir c x s).RSP = s.RSP ++ ([⟨1#4, .ok, []⟩] ++
    (outputSegments Config.E dir (Bytes.ofList key c.2.1) c.1.2 (seed iv c.2.2) (chunk n.toNat c.1.1 x)).map
      (fun Y => ⟨2#4, .ok, Y.val⟩) ++ [⟨3#4, .ok, []⟩]) := by
  have h := afterSegments_RSP dir (Bytes.ofList key c.2.1) (startSize c) (seed iv c.2.2) (chunk n.toNat c.1.1 x)
    (started dir c s)
  rw [transformed, finished, respond_RSP, h, started, respond_RSP, beginInvocation_RSP]
  simp only [List.append_assoc]
  rfl

/-- A TRANSFORM in contract has the output of R132 as its result. -/
theorem execTransform_in_contract (hidle : s.live = false) (x : List Byte) :
    execTransform dir key iv n x s = .next (.result (transformOutput dir c x), transformed dir c x s) := by
  have hr : (started dir c s).RSP.getLast? = some ⟨1#4, .ok, []⟩ := List.getLast?_concat
  simp only [execTransform, exec_start_of_idle c hidle, hr, dif_pos c.1.1]
  refine (issueSegments_of_allTaken (allTaken_started c x) []).trans ?_
  simp only [issueSegments, exec_finish_transformed, List.nil_append]
  rfl

/-- The commands of a TRANSFORM in contract, executed in order. -/
theorem execAll_transformCommands (hidle : s.live = false) (x : List Byte) :
    execAll (transformCommands dir key iv n c.1.1 x) s = .next (transformed dir c x s) := by
  rw [transformCommands, execAll_cons (exec_start_of_idle c hidle)]
  refine (execAll_of_allTaken (allTaken_started c x) [.finish]).trans ?_
  rw [execAll_cons (exec_finish_transformed c x), execAll]

end

section
variable {dir : Direction} {key iv : List Byte} {n : Byte} {s : State} (x : List Byte)

/-- A TRANSFORM with a length out of contract fails at its START (R131, R151). -/
theorem execTransform_out_of_contract (hidle : s.live = false) (c : ¬ StartInContract key iv n) :
    execTransform dir key iv n x s = .next (.failure .invalidLength, fail 1#4 s) := by
  have he : exec (.start dir key iv n) s = .next (fail 1#4 s) :=
    execStart_out_of_contract (start_enabled_of_idle dir key iv n hidle) c
  have hr : (fail 1#4 s).RSP.getLast? = some ⟨1#4, .invalidLength, []⟩ := List.getLast?_concat
  simp only [execTransform, he, hr]

/-- A TRANSFORM issued in a live invocation is rejected at its START (R119, R131). -/
theorem execTransform_of_live (hl : s.live = true) :
    execTransform dir key iv n x s = .next (.noResult, reject 1#4 s) := by
  have he : exec (.start dir key iv n) s = .next (reject 1#4 s) :=
    exec_of_not_enabled (start_not_enabled dir key iv n ((live_iff s).mp hl))
  have hr : (reject 1#4 s).RSP.getLast? = some ⟨1#4, .rejected, []⟩ := List.getLast?_concat
  simp only [execTransform, he, hr]

end

/-- Settles O44: the three ways a START can go decide the end of the TRANSFORM. -/
theorem transformCommandsComputeTransform : Obligations.TransformCommandsComputeTransform := by
  intro dir key iv n x s
  refine ⟨execTransform_of_live x, fun hidle => ?_⟩
  by_cases c : StartInContract key iv n
  · refine ⟨transformed dir c x s, fun _ => ⟨transformOutput dir c x, ?_⟩, fun hbad => absurd c hbad⟩
    exact ⟨transform_eq_ok c x, execTransform_in_contract c hidle x, rfl, transformed_ACC c x, transformed_PLOG c x⟩
  · refine ⟨fail 1#4 s, fun h => absurd h c, fun _ => ⟨dif_neg c, ?_, rfl⟩⟩
    exact execTransform_out_of_contract x hidle c

/-! ### Running the steps of a command stream (R59, R84) -/

/-- A command does not read the ports and passes them on. -/
theorem exec_setPorts {i : Instr} {s t : State} (es : List HostEvent) (h : exec i s = .next t) :
    exec i (setPorts es s) = .next (setPorts es t) := by
  cases i with
  | start dir key iv n =>
    obtain ⟨e, rfl⟩ | ⟨e, c, rfl⟩ | ⟨c, e, rfl⟩ := execStart_cases h
    · exact whenEnabled_of_not_enabled _ e
    · exact execStart_out_of_contract e c
    · exact execStart_in_contract (s := setPorts es s) e c
  | seg data =>
    obtain ⟨e, rfl⟩ | ⟨S, e, hS, c, rfl⟩ | ⟨S, R, K, dir, _, e, hS, hR, hK, hD, c, rfl⟩ := execSeg_cases h
    · exact whenEnabled_of_not_enabled _ e
    · exact execSeg_out_of_contract e hS c
    · exact execSeg_in_contract (s := setPorts es s) e hS hR hK hD c
  | finish =>
    obtain ⟨e, rfl⟩ | ⟨e, rfl⟩ := execFinish_cases h
    · exact whenEnabled_of_not_enabled _ e
    · exact whenEnabled_of_enabled _ e
  | abort => cases h; rfl
  | stat => cases h; rfl

theorem exec_keeps_CMD {i : Instr} {s t : State} (h : exec i s = .next t) : t.CMD = s.CMD := by
  have hports := exec_setPorts s.CMD h
  have ht : t = setPorts s.CMD t := Host.Outcome.next.inj (h.symm.trans hports)
  exact (congrArg State.CMD ht).trans (setPorts_CMD s.CMD t)

/-- A run takes its first step and goes on from where that led. -/
theorem run_succ {k : Nat} {s t : State} (h : step s = .next t) :
    Host.Core.run Sys2Proof.core (k + 1) s = Host.Core.run Sys2Proof.core k t := by
  have hcore : Sys2Proof.core.step s = .next t := h
  simp only [Host.Core.run, hcore]

/-- Steps over the bytes of well-formed commands execute the commands and leave what follows on the ports. -/
theorem run_encodeAll {is : List Instr} {rest : List HostEvent} {s t : State}
    (hw : ∀ i ∈ is, i.wellFormed = true) (hCMD : s.CMD = sendBytes (encodeAll is) ++ rest)
    (h : execAll is (setPorts rest s) = .next t) : Host.Core.run Sys2Proof.core is.length s = .next t := by
  induction is generalizing s with
  | nil =>
    have hs : setPorts rest s = s := congrArg (setPorts · s) hCMD.symm
    exact hs ▸ h
  | cons i is ih =>
    obtain ⟨u, hu, h⟩ := execAll_cons_next h
    have hCMD' : s.CMD = sendBytes (encode i) ++ (sendBytes (encodeAll is) ++ rest) := by
      rw [hCMD, encodeAll, List.flatMap_cons, sendBytes_append, List.append_assoc, encodeAll]
    have hports := exec_setPorts (sendBytes (encodeAll is) ++ rest) hu
    have hstep : step s = .next (setPorts (sendBytes (encodeAll is) ++ rest) u) :=
      (stepRunsDecodedCommand s i _ (hw i List.mem_cons_self) hCMD').trans hports
    have hu' : setPorts rest u = u := congrArg (setPorts · u) (exec_keeps_CMD hu).symm
    rw [List.length_cons, run_succ hstep]
    exact ih (fun j hj => hw j (List.mem_cons_of_mem i hj))
      (setPorts_CMD (sendBytes (encodeAll is) ++ rest) u) ((congrArg (execAll is) hu').trans h)

/-- The commands of a TRANSFORM in contract fit their headers (R5, R6, R67, R68). -/
theorem wellFormed_transformCommands {dir : Direction} {key iv : List Byte} {n : Byte} (c : StartInContract key iv n)
    {x : List Byte} : ∀ i ∈ transformCommands dir key iv n c.1.1 x, i.wellFormed = true := by
  intro i hi
  have hn := c.1.2
  have hkey := c.2.1
  have hiv := c.2.2
  have hB := Config.blockSize_le
  have hKLEN := Config.keyLen_le
  simp only [transformCommands, List.mem_cons, List.mem_append, List.mem_map, List.not_mem_nil, or_false] at hi
  obtain rfl | ⟨X, -, rfl⟩ | rfl := hi
  · simp only [Instr.wellFormed, fitsLengthField, Bool.and_eq_true, decide_eq_true_eq]
    omega
  · have hX := X.property.2
    simp only [Instr.wellFormed, fitsLengthField, decide_eq_true_eq]
    omega
  · rfl

/-- Settles O45: the steps execute the commands of the TRANSFORM, and its responses carry the output. -/
theorem stepsComputeTransform : Obligations.StepsComputeTransform := by
  intro dir key iv n x y rest s _ hidle hy hCMD
  obtain ⟨c, rfl⟩ := transform_eq_ok_iff.mp hy
  have hexec := execAll_transformCommands (dir := dir) (s := setPorts rest s) c hidle x
  refine ⟨transformed dir c x (setPorts rest s), run_encodeAll (wellFormed_transformCommands c) hCMD hexec, rfl,
    transformed_ACC c x, transformed_CMD c x, _, transformed_RSP c x, ?_, ?_⟩
  · simp only [transformCommands, List.length_append, List.length_cons, List.length_nil, List.length_map,
      outputSegments_length]
    omega
  · simp only [List.flatMap_append, List.flatMap_map, List.flatMap_cons, List.flatMap_nil, List.append_nil,
      List.nil_append]
    exact flatMap_outputSegments _ _ _ _ _ _

end Sys2Proof.Machine
end

section
/-! PROOFS of the family 60_exceptions.md: a step with nothing complete on the ports (R164, log entry 4). -/

namespace Sys2Proof.Machine

/-- Where no reset stands on the ports, all of their events are bytes before the first reset. -/
@[simp] theorem splitAtReset_sendBytes (bs : List Byte) : splitAtReset (sendBytes bs) = (bs, []) := by
  simpa [splitAtReset] using splitAtReset_sendBytes_append bs []

/-- The CORE waits for the rest of a command that has not arrived in full. -/
theorem fetch_sendBytes_incomplete {bs : List Byte} (h : decode bs = .incomplete) :
    fetch (sendBytes bs) = .waiting := by
  simp only [fetch, splitAtReset_sendBytes, h]

/-- Settles O41: the fetch finds nothing to take, and the step then writes nothing. -/
theorem stepWaitsForHost : Obligations.StepWaitsForHost := by
  intro s bs h hCMD
  rw [step, hCMD, fetch_sendBytes_incomplete h]

end Sys2Proof.Machine
end

section
/-! PROOFS of the family 70_reset_and_hazards.md: what stays fixed inside an invocation (R179), and the step that
takes a reset (R170 to R172). -/

namespace Sys2Proof.Machine

/-- Inside an invocation a command does not write the key, the direction or the segment size: the commands that
write them are START, which is not enabled there, and those after which no invocation is live. -/
theorem exec_keeps_key_direction_size {i : Instr} {s t : State} (h : exec i s = .next t) (hs : s.live = true)
    (ht : t.live = true) : t.K = s.K ∧ t.DIR = s.DIR ∧ t.S = s.S := by
  cases i with
  | start dir key iv n =>
    rw [exec_of_not_enabled (start_not_enabled dir key iv n ((live_iff s).mp hs))] at h
    cases h
    exact ⟨rfl, rfl, rfl⟩
  | seg data =>
    obtain ⟨-, S, R, K, dir, c, -, -, -, -, -, rfl⟩ := execSeg_to_live h ht
    exact ⟨rfl, rfl, rfl⟩
  | finish =>
    rw [exec_finish_of_live hs] at h
    cases h
    cases ht
  | abort => cases h; cases ht
  | stat => cases h; exact ⟨rfl, rfl, rfl⟩

/-- Settles O33: a command keeps the three items, a rejected header and a wait write none of them, and after a reset
no invocation is live. -/
theorem keyAndSizeFixedWhileLive : Obligations.KeyAndSizeFixedWhileLive := by
  intro s t h hs ht
  obtain ⟨i, rest, -, h⟩ | ⟨hd, rest, -, rfl⟩ | ⟨rest, -, rfl⟩ | ⟨-, rfl⟩ := step_cases h
  · exact exec_keeps_key_direction_size (s := setPorts rest s) h hs ht
  · exact ⟨rfl, rfl, rfl⟩
  · cases ht
  · exact ⟨rfl, rfl, rfl⟩

/-- The CORE takes a reset together with the part of a command that stands before it, which is discarded (R172). -/
theorem fetch_sendBytes_incomplete_reset {bs : List Byte} (h : decode bs = .incomplete) (rest : List HostEvent) :
    fetch (sendBytes bs ++ .reset :: rest) = .reset rest := by
  simp only [fetch, splitAtReset_sendBytes_append, splitAtReset_reset, List.append_nil, h]

/-- Settles O40: the fetch finds the reset, and the reset event leaves nothing of the state but the responses and
the events after it. -/
theorem stepTakesReset : Obligations.StepTakesReset := by
  intro s bs rest h hCMD
  rw [step, hCMD, fetch_sendBytes_incomplete_reset h]
  rfl

end Sys2Proof.Machine
end
